-- ==== Sys2Proof/Word.lean ====
section
/-! DEFINITION. The plain types of the block: bytes, byte strings, block identifiers and symbol identifiers (R7, R9, R47). -/

namespace Sys2Proof

/-- R9: a byte is an unsigned 8-bit value. -/
abbrev Byte := BitVec 8

/-- R9: a byte string is a finite sequence of bytes. -/
abbrev Bytes := List Byte

/-- R7, R84: a block identifier is an element of Z/256 (ID_BITS = 8). -/
abbrev BlockId := BitVec 8

/-- R47: an encoding symbol identifier is a 24-bit index within a block. -/
abbrev Esi := BitVec 24

end Sys2Proof
end

