-- ==== Sys2Proof/Machine/Bytes.lean ====
section
/-! DEFINITION. Byte-string helpers of the notation (R9, R34): big-endian fields, slices, zero runs, ceiling division. -/

namespace Sys2Proof.Machine

/-- R9, R34: `beN(v)`, the `n`-byte big-endian encoding; every rule that uses it has `v < 2^(8n)`
(a larger `v` would be reduced modulo `2^(8n)`, which no rule lets happen). -/
def be : Nat → Nat → Bytes
  | 0, _ => []
  | n + 1, v => BitVec.ofNat 8 (v / 256 ^ n) :: be n v

/-- R9, R34: `unbe(b)`, the unsigned integer of a byte string read big-endian. -/
def unbe (b : Bytes) : Nat :=
  b.foldl (fun acc x => acc * 256 + x.toNat) 0

/-- R9: `b[i..j)`, the bytes of `b` at indices `i` to `j - 1`. -/
def slice (b : Bytes) (i j : Nat) : Bytes :=
  (b.drop i).take (j - i)

/-- R9: `zeros(n)`. -/
def zeros (n : Nat) : Bytes :=
  List.replicate n 0

/-- R9, R10: `ceil(a / b)` for `b ≥ 1`, the least `q` with `q * b ≥ a`. -/
def ceilDiv (a b : Nat) : Nat :=
  (a + b - 1) / b

end Sys2Proof.Machine
end

