-- ==== Sys2Proof/Syntax.lean ====
section
/-! DEFINITION. The commands of the block (R51): one constructor per row of the opcode table, operands as the spec gives them. -/

namespace Sys2Proof

/-- R51: the eight opcodes. -/
inductive Opcode where
  | configure | stamp | parse | encPush | encFlush | decFeed | rxPacket | inspect
  deriving DecidableEq, Repr

/-- R51: a legal command. A variable-length operand is the byte string itself; its 16-bit length L is not kept apart. -/
inductive Instr where
  /-- CONFIGURE (R90). -/
  | configure (magic : BitVec 32) (mode : BitVec 8) (minBlockSize : BitVec 32) (packetSize repairCount : BitVec 16)
      (staticBlockSize : BitVec 32) (staticPacketSize : BitVec 16)
  /-- STAMP (R58); `fec` is the FEC operand byte, true for 0x01 and false for 0x00. -/
  | stamp (fec : Bool) (payload : Bytes)
  /-- PARSE (R59). -/
  | parse (bytes : Bytes)
  /-- ENC_PUSH (R66, R67). -/
  | encPush (datagram : Bytes)
  /-- ENC_FLUSH (R68). -/
  | encFlush
  /-- DEC_FEED (R71). -/
  | decFeed (coded : Bytes)
  /-- RX_PACKET (R60). -/
  | rxPacket (packet : Bytes)
  /-- INSPECT (R91). -/
  | inspect (id : BlockId)
  deriving DecidableEq, Repr

/-- The opcode of a command. -/
def Instr.opcode : Instr → Opcode
  | .configure _ _ _ _ _ _ _ => .configure
  | .stamp _ _ => .stamp
  | .parse _ => .parse
  | .encPush _ => .encPush
  | .encFlush => .encFlush
  | .decFeed _ => .decFeed
  | .rxPacket _ => .rxPacket
  | .inspect _ => .inspect

/-- R50: the variable-length operand of a command, empty where it has none. -/
def Instr.body : Instr → Bytes
  | .configure _ _ _ _ _ _ _ => []
  | .stamp _ payload => payload
  | .parse bytes => bytes
  | .encPush datagram => datagram
  | .encFlush => []
  | .decFeed coded => coded
  | .rxPacket packet => packet
  | .inspect _ => []

/-- R51: the length of a command's frame. -/
def Instr.frameLength : Instr → Nat
  | .configure _ _ _ _ _ _ _ => 20
  | .stamp _ payload => 4 + payload.length
  | .parse bytes => 3 + bytes.length
  | .encPush datagram => 3 + datagram.length
  | .encFlush => 1
  | .decFeed coded => 3 + coded.length
  | .rxPacket packet => 3 + packet.length
  | .inspect _ => 2

end Sys2Proof
end

