-- ==== Sys2Proof/WellFormed.lean ====
section
/-! DEFINITION. Which commands have a frame: a variable-length operand has a 16-bit length (R50). Every other operand
value is legal (R51); reserved MODE bits are CONFIGURE's own check (R52, R90). -/

namespace Sys2Proof

/-- R50: a variable-length operand holds at most 65535 bytes, because L is 16 bits. -/
def Instr.wellFormed : Instr → Bool
  | .configure _ _ _ _ _ _ _ => true
  | .stamp _ payload => decide (payload.length ≤ 65535)
  | .parse bytes => decide (bytes.length ≤ 65535)
  | .encPush datagram => decide (datagram.length ≤ 65535)
  | .encFlush => true
  | .decFeed coded => decide (coded.length ≤ 65535)
  | .rxPacket packet => decide (packet.length ≤ 65535)
  | .inspect _ => true

end Sys2Proof
end

