-- ==== Sys2Proof/Decode.lean ====
section
/-! DEFINITION. Command frames (R50, R51): the decoder, total on every byte string and refusing by name (R52), and the
encoder. -/

namespace Sys2Proof

open Sys2Proof.Machine

/-- R51: the opcode byte. -/
def Opcode.code : Opcode → Byte
  | .configure => 0x01
  | .stamp => 0x02
  | .parse => 0x03
  | .encPush => 0x10
  | .encFlush => 0x11
  | .decFeed => 0x20
  | .rxPacket => 0x21
  | .inspect => 0x30

/-- R51: every row of the opcode table. -/
def opcodeTable : List Opcode :=
  [.configure, .stamp, .parse, .encPush, .encFlush, .decFeed, .rxPacket, .inspect]

/-- R51, R52: the opcode a byte names, none for the unassigned values. -/
def opcodeOf (b : Byte) : Option Opcode :=
  opcodeTable.find? fun op => op.code == b

/-- R52: why a frame is illegal. -/
inductive Illegal where
  | emptyFrame | unassignedOpcode | wrongLength | badStampFec
  deriving DecidableEq, Repr

/-- R50, R51: the big-endian field of a frame at bytes `i` to `j - 1`, as a `w`-bit operand. -/
def operand (w : Nat) (frame : Bytes) (i j : Nat) : BitVec w :=
  BitVec.ofNat w (unbe (slice frame i j))

/-- R50: the variable-length operand whose 16-bit length stands at byte `i`, if the frame has exactly that length. -/
def tailOperand (frame : Bytes) (i : Nat) : Option Bytes :=
  if frame.length = i + 2 + unbe (slice frame i (i + 2)) then some (frame.drop (i + 2)) else none

/-- A variable-length command, or the length error of R52. -/
def tailCommand (frame : Bytes) (mk : Bytes → Instr) : Except Illegal Instr :=
  match tailOperand frame 1 with
  | some body => .ok (mk body)
  | none => .error .wrongLength

/-- R51: STAMP; R96: its length is checked before its FEC byte. -/
def decodeStamp (frame : Bytes) : Except Illegal Instr :=
  match tailOperand frame 2 with
  | some payload =>
    let fec := operand 8 frame 1 2
    if fec = 0x00 then .ok (.stamp false payload)
    else if fec = 0x01 then .ok (.stamp true payload)
    else .error .badStampFec
  | none => .error .wrongLength

/-- R51: CONFIGURE. -/
def decodeConfigure (frame : Bytes) : Except Illegal Instr :=
  if frame.length = 20 then
    .ok (.configure (operand 32 frame 1 5) (operand 8 frame 5 6) (operand 32 frame 6 10) (operand 16 frame 10 12)
      (operand 16 frame 12 14) (operand 32 frame 14 18) (operand 16 frame 18 20))
  else .error .wrongLength

/-- R50 to R52, R96: the command a frame holds. The checks stand in the order of R96: empty frame, unassigned opcode,
wrong length, bad STAMP FEC byte. -/
def decode (frame : Bytes) : Except Illegal Instr :=
  match frame with
  | [] => .error .emptyFrame
  | op :: _ =>
    match opcodeOf op with
    | none => .error .unassignedOpcode
    | some .configure => decodeConfigure frame
    | some .stamp => decodeStamp frame
    | some .parse => tailCommand frame .parse
    | some .encPush => tailCommand frame .encPush
    | some .encFlush => if frame.length = 1 then .ok .encFlush else .error .wrongLength
    | some .decFeed => tailCommand frame .decFeed
    | some .rxPacket => tailCommand frame .rxPacket
    | some .inspect => if frame.length = 2 then .ok (.inspect (operand 8 frame 1 2)) else .error .wrongLength

/-- R50: a 16-bit length and its bytes. -/
def encodeTail (body : Bytes) : Bytes :=
  be 2 body.length ++ body

/-- R50, R51: the frame of a command (of a well-formed one; a longer body has no 16-bit length). -/
def encode : Instr → Bytes
  | .configure magic mode minBlockSize packetSize repairCount staticBlockSize staticPacketSize =>
    Opcode.configure.code :: (be 4 magic.toNat ++ be 1 mode.toNat ++ be 4 minBlockSize.toNat ++ be 2 packetSize.toNat ++
      be 2 repairCount.toNat ++ be 4 staticBlockSize.toNat ++ be 2 staticPacketSize.toNat)
  | .stamp fec payload => Opcode.stamp.code :: (if fec then 0x01 else 0x00) :: encodeTail payload
  | .parse bytes => Opcode.parse.code :: encodeTail bytes
  | .encPush datagram => Opcode.encPush.code :: encodeTail datagram
  | .encFlush => [Opcode.encFlush.code]
  | .decFeed coded => Opcode.decFeed.code :: encodeTail coded
  | .rxPacket packet => Opcode.rxPacket.code :: encodeTail packet
  | .inspect id => [Opcode.inspect.code, id]

/-- Byte `i` of a word of `nbits` bits that is numbered from its first byte; 0 above its bits. -/
def tableByte (nbits w i : Nat) : Byte :=
  BitVec.ofNat 8 (w % 2 ^ nbits / 256 ^ i)

/-- R50, R51: how long a frame is that begins with the bytes of such a word and goes on in zeros; 1 for an opcode that
is not assigned. -/
def tableLength (nbits w : Nat) : Nat :=
  let at16 := fun i => unbe [tableByte nbits w i, tableByte nbits w (i + 1)]
  match opcodeOf (tableByte nbits w 0) with
  | some .configure => 20
  | some .stamp => 4 + at16 2
  | some .encFlush => 1
  | some .inspect => 2
  | some .parse => 3 + at16 1
  | some .encPush => 3 + at16 1
  | some .decFeed => 3 + at16 1
  | some .rxPacket => 3 + at16 1
  | none => 1

/-- The frame of a word of the opcode table: its bytes in order, then zeros up to the command's length. -/
def tableFrame (nbits w : Nat) : Bytes :=
  (List.range (max ((nbits + 7) / 8) (tableLength nbits w))).map (tableByte nbits w)

/-- The command the decoder reads from a word of the opcode table. -/
def decodeTableWord (nbits w : Nat) : Option Instr :=
  match decode (tableFrame nbits w) with
  | .ok i => some i
  | .error _ => none

end Sys2Proof
end

