-- ==== Sys2Proof/Machine/Store.lean ====
section
/-! DEFINITION. The two finite collections the spec names, as lists in one canonical form: partial maps keyed by an unsigned
identifier (SESS of R26, SYMS of R26) and sets of identifiers (DECODED of R27). Keys strictly rise, so that equal maps
and equal sets are equal lists. -/

namespace Sys2Proof.Machine

/-- A partial map from `w`-bit identifiers, held as a list with strictly rising keys. -/
abbrev Store (w : Nat) (α : Type) := List (BitVec w × α)

/-- A set of `w`-bit identifiers, held as a strictly rising list. -/
abbrev IdSet (w : Nat) := List (BitVec w)

/-- The canonical form of a map: keys strictly rising. -/
abbrev storeWf {w : Nat} {α : Type} (m : Store w α) : Prop :=
  m.Pairwise fun a b => a.1.toNat < b.1.toNat

/-- The canonical form of a set: members strictly rising. -/
abbrev idSetWf {w : Nat} (m : IdSet w) : Prop :=
  m.Pairwise fun a b => a.toNat < b.toNat

/-- The value a map holds at a key, if any. -/
def storeGet {w : Nat} {α : Type} (k : BitVec w) : Store w α → Option α
  | [] => none
  | (k', v) :: m => if k = k' then some v else storeGet k m

/-- The map with `v` at `k`, replacing what was there. -/
def storePut {w : Nat} {α : Type} (k : BitVec w) (v : α) : Store w α → Store w α
  | [] => [(k, v)]
  | (k', v') :: m =>
    if k.toNat < k'.toNat then (k, v) :: (k', v') :: m
    else if k = k' then (k, v) :: m
    else (k', v') :: storePut k v m

/-- The map without `k`. -/
def storeErase {w : Nat} {α : Type} (k : BitVec w) (m : Store w α) : Store w α :=
  m.filter fun e => decide (e.1 ≠ k)

/-- The map restricted to the keys that `p` keeps. -/
def storeKeep {w : Nat} {α : Type} (p : BitVec w → Bool) (m : Store w α) : Store w α :=
  m.filter fun e => p e.1

/-- The domain of a map. -/
def storeKeys {w : Nat} {α : Type} (m : Store w α) : List (BitVec w) :=
  m.map (·.1)

/-- The set with `k` added. -/
def idSetInsert {w : Nat} (k : BitVec w) : IdSet w → IdSet w
  | [] => [k]
  | k' :: m =>
    if k.toNat < k'.toNat then k :: k' :: m
    else if k = k' then k' :: m
    else k' :: idSetInsert k m

/-- The set restricted to the members that `p` keeps. -/
def idSetKeep {w : Nat} (p : BitVec w → Bool) (m : IdSet w) : IdSet w :=
  m.filter p

end Sys2Proof.Machine
end

