-- ==== Sys2Proof/Config/Code.lean ====
section
/-! DEFINITION. The open parameters of an implementation, and the erasure code CODE as a parameter of the model: two
operations and the laws the spec assumes of them (R8, R70). No algorithm is chosen. -/

namespace Sys2Proof

open Sys2Proof.Machine

/-- R8: the open numeric parameters of an implementation. `kMax` is K_MAX, `esiLimit` ESI_LIMIT and `symbolOverhead`
SYMBOL_OVERHEAD. State holds one record of them, no step writes it, and every statement is about every value of it. -/
structure Params where
  kMax : Nat
  esiLimit : Nat
  symbolOverhead : Nat
  deriving DecidableEq, Repr

/-- R8: the identifiers the code defines fit the 24-bit ESI field. -/
abbrev Params.wf (p : Params) : Prop := p.esiLimit ≤ 2 ^ 24

/-- R70: the symbol sizes and source-symbol counts that CODE takes. -/
abbrev Params.inRange (p : Params) (T k : Nat) : Prop := 1 ≤ T ∧ T ≤ 65535 ∧ 1 ≤ k ∧ k ≤ p.kMax

/-- R70 law 1 (systematic): symbol `e` of the padded payload `P`. A source symbol (`e < k`) is the slice
`P[e·T .. (e+1)·T)`; any other symbol is what the code's `repair` gives. -/
def codeSymbol (repair : Bytes → Nat → Nat → Nat → Bytes) (P : Bytes) (T k e : Nat) : Bytes :=
  if e < k then slice P (e * T) ((e + 1) * T) else repair P T k e

/-- R70 law 2, of the symbols with identifiers below `n`: any `k` of them belong to one payload only. (It is what law 2
asks of the symbols: a decoder that always answers the payload can exist only if they determine it.) -/
def AnyKSuffice (repair : Bytes → Nat → Nat → Nat → Bytes) (T k n : Nat) : Prop :=
  ∀ P Q : Bytes, P.length = k * T → Q.length = k * T → ∀ es : List Nat, es.Nodup → k ≤ es.length →
    (∀ e ∈ es, e < n ∧ codeSymbol repair P T k e = codeSymbol repair Q T k e) → P = Q

/-- Some code with symbols of `T` bytes meets law 2 for blocks of `k` source symbols, on the identifiers below `n`. -/
def LawTwoPossible (T k n : Nat) : Prop :=
  ∃ repair : Bytes → Nat → Nat → Nat → Bytes,
    (∀ P e, P.length = k * T → k ≤ e → e < n → (repair P T k e).length = T) ∧ AnyKSuffice repair T k n

/-- A symbol map holds symbols of the payload `P` alone. -/
def Genuine (repair : Bytes → Nat → Nat → Nat → Bytes) (P : Bytes) (T k : Nat) (M : Store 24 Bytes) : Prop :=
  ∀ p ∈ M, p.2 = codeSymbol repair P T k p.1.toNat

/-- R70: the erasure code of an implementation with parameters `params`, within the ranges R70 gives. `repair P T k e` is
`CODE.sym(P, T, k, e)` for `e ≥ k`. `decode n F T k M` is the result of the call of `CODE.decode(F, T, k, M)` that draws
number `n` (law 3: each call is a fresh draw).
DEDUCED (assumption 5): law 2 is required wherever it can be met. `any_k`: for each `T` and `k`, any `k` of the first `n`
symbols suffice, for every `n` up to ESI_LIMIT for which any code has that property. `decode_determined`: a map that
belongs to one block only decodes to it. Every code that meets law 2 in full is one of these, and where law 2 can be met
in full for `T` and `k`, all of these meet it in full. -/
structure ErasureCode (params : Params) where
  repair : Bytes → Nat → Nat → Nat → Bytes
  decode : Nat → Nat → Nat → Nat → Store 24 Bytes → Option Bytes
  repair_length : ∀ P T k e, params.inRange T k → P.length = k * T → k ≤ e → e < params.esiLimit →
    (repair P T k e).length = T
  decode_length : ∀ n F T k M x, params.inRange T k → (k - 1) * T < F → F ≤ k * T → k ≤ M.length →
    (∀ p ∈ M, p.1.toNat < params.esiLimit ∧ p.2.length = T) → decode n F T k M = some x → x.length = F
  any_k : ∀ T k n, params.inRange T k → n ≤ params.esiLimit → LawTwoPossible T k n → AnyKSuffice repair T k n
  decode_determined : ∀ n F T k M P, params.inRange T k → (k - 1) * T < F → F ≤ k * T → P.length = k * T →
    storeWf M → k ≤ M.length → (∀ p ∈ M, p.1.toNat < params.esiLimit) → Genuine repair P T k M →
    (∀ Q, Q.length = k * T → Genuine repair Q T k M → Q.take F = P.take F) → decode n F T k M = some (P.take F)

end Sys2Proof
end

