-- ==== Sys2Proof/Laws/Bytes.lean ====
section
/-! SUPPORT. What the byte-string helpers do: lengths, and big-endian reading and writing undo each other. -/

namespace Sys2Proof.Laws

open Sys2Proof.Machine

@[simp] theorem be_length (n v : Nat) : (be n v).length = n := by
  induction n with
  | zero => rfl
  | succ n ih => simp [be, ih]

@[simp] theorem zeros_length (n : Nat) : (zeros n).length = n := by
  simp [zeros]

theorem slice_length (b : Bytes) (i j : Nat) (h : j ≤ b.length) : (slice b i j).length = j - i := by
  simp only [slice, List.length_take, List.length_drop]; omega

theorem slice_append_left (a b : Bytes) (i j : Nat) (h : j ≤ a.length) :
    slice (a ++ b) i j = slice a i j := by
  by_cases hi : i ≤ a.length
  · simp only [slice]
    rw [List.drop_append_of_le_length hi, List.take_append_of_le_length (by simp; omega)]
  · have : j - i = 0 := by omega
    simp [slice, this]

theorem slice_append_right (a b : Bytes) (i j : Nat) (h : i = a.length) :
    slice (a ++ b) i j = b.take (j - i) := by
  simp [slice, h]

theorem slice_append_shift (a b : Bytes) (i j : Nat) (h : a.length ≤ i) :
    slice (a ++ b) i j = slice b (i - a.length) (j - a.length) := by
  have h1 : (a ++ b).drop i = b.drop (i - a.length) := by
    have := List.drop_append (l₁ := a) (l₂ := b) (i := i)
    rw [this, List.drop_eq_nil_of_le h, List.nil_append]
  have h2 : j - a.length - (i - a.length) = j - i := by omega
  simp [slice, h1, h2]

theorem slice_self (b : Bytes) (n : Nat) (h : b.length = n) : slice b 0 n = b := by
  simp [slice, ← h]

theorem unbe_foldl (b : Bytes) (a : Nat) :
    b.foldl (fun acc x => acc * 256 + x.toNat) a = a * 256 ^ b.length + unbe b := by
  induction b generalizing a with
  | nil => simp [unbe]
  | cons x b ih =>
    have h0 : unbe (x :: b) = x.toNat * 256 ^ b.length + unbe b := by
      have := ih (x.toNat)
      simpa [unbe] using this
    rw [h0, List.foldl_cons, ih]
    simp only [List.length_cons, pow_succ]
    ring

theorem unbe_cons (x : Byte) (b : Bytes) : unbe (x :: b) = x.toNat * 256 ^ b.length + unbe b := by
  have := unbe_foldl b x.toNat
  simpa [unbe] using this

@[simp] theorem unbe_nil : unbe [] = 0 := rfl

/-- R9: an `n`-byte string reads as a number below `2^(8n)`. -/
theorem unbe_lt (b : Bytes) : unbe b < 256 ^ b.length := by
  induction b with
  | nil => simp
  | cons x b ih =>
    have hx := x.isLt
    rw [unbe_cons, List.length_cons, pow_succ]
    nlinarith [Nat.one_le_pow b.length 256 (by norm_num)]

theorem be_mod (n v m : Nat) : be n (v % 256 ^ (n + m)) = be n v := by
  induction n generalizing m with
  | zero => rfl
  | succ n ih =>
    have h1 : n + 1 + m = n + (m + 1) := by omega
    simp only [be]
    rw [h1, ih (m + 1)]
    congr 1
    apply BitVec.eq_of_toNat_eq
    simp only [BitVec.toNat_ofNat]
    rw [pow_add, Nat.mod_mul_right_div_self, pow_succ, Nat.mul_comm (256 ^ m) 256]
    exact Nat.mod_mul_right_mod _ _ _

/-- R9: reading what `beN` wrote gives the value back, modulo the width. -/
theorem unbe_be (n v : Nat) : unbe (be n v) = v % 256 ^ n := by
  induction n with
  | zero => simp [be, Nat.mod_one]
  | succ n ih =>
    have h := Nat.mod_mul (x := v) (a := 256 ^ n) (b := 256)
    rw [be, unbe_cons, ih, be_length, BitVec.toNat_ofNat, pow_succ 256 n, h]
    norm_num
    ring

theorem unbe_be_of_lt {n v : Nat} (h : v < 256 ^ n) : unbe (be n v) = v := by
  rw [unbe_be, Nat.mod_eq_of_lt h]

/-- R9: writing back the number that a byte string reads as gives the string. -/
theorem be_unbe (b : Bytes) : be b.length (unbe b) = b := by
  induction b with
  | nil => rfl
  | cons x b ih =>
    have hlt := unbe_lt b
    have hpos : 0 < 256 ^ b.length := Nat.pos_of_ne_zero (by positivity)
    have hdiv : (x.toNat * 256 ^ b.length + unbe b) / 256 ^ b.length = x.toNat := by
      rw [Nat.mul_comm, Nat.mul_add_div hpos, Nat.div_eq_of_lt hlt]; omega
    have hmod : be b.length (x.toNat * 256 ^ b.length + unbe b) = be b.length (unbe b) := by
      have h := be_mod b.length (x.toNat * 256 ^ b.length + unbe b) 0
      rw [← h, Nat.add_zero, Nat.mul_comm, Nat.mul_add_mod, Nat.mod_eq_of_lt hlt]
    rw [List.length_cons, unbe_cons, be, hdiv, hmod, ih]
    simp

theorem be_unbe_of_length {b : Bytes} {n : Nat} (h : b.length = n) : be n (unbe b) = b := by
  subst h; exact be_unbe b

/-- A byte string is determined by its length and the number it reads as. -/
theorem unbe_inj {a b : Bytes} (hl : a.length = b.length) (h : unbe a = unbe b) : a = b := by
  rw [← be_unbe a, ← be_unbe b, hl, h]

/-- R9, R10: `ceil(a / b)` is the least `q` with `q * b ≥ a`. -/
theorem ceilDiv_le_iff {a b : Nat} (hb : 1 ≤ b) (q : Nat) : ceilDiv a b ≤ q ↔ a ≤ q * b := by
  rw [ceilDiv, Nat.div_le_iff_le_mul_add_pred hb]
  rw [Nat.mul_comm q b]
  omega

theorem le_ceilDiv_mul {a b : Nat} (hb : 1 ≤ b) : a ≤ ceilDiv a b * b :=
  (ceilDiv_le_iff hb _).1 le_rfl

theorem ceilDiv_pos {a b : Nat} (ha : 1 ≤ a) (hb : 1 ≤ b) : 1 ≤ ceilDiv a b := by
  by_contra h
  have h0 : ceilDiv a b ≤ 0 := by omega
  have := (ceilDiv_le_iff hb 0).1 h0
  omega

theorem pred_ceilDiv_mul_lt {a b : Nat} (ha : 1 ≤ a) (hb : 1 ≤ b) : (ceilDiv a b - 1) * b < a := by
  by_contra h
  have hle : a ≤ (ceilDiv a b - 1) * b := by omega
  have := (ceilDiv_le_iff hb _).2 hle
  have := ceilDiv_pos ha hb
  omega

/-- R9: `be1(v)` is the one-byte string of `v`. -/
theorem be_one (v) : be 1 v = [BitVec.ofNat 8 v] := by simp [be]

theorem flatMap_be_length (l : List Nat) : (l.flatMap (be 2)).length = 2 * l.length := by
  induction l with
  | nil => rfl
  | cons a l ih => simp; omega

/-- A big-endian field read out of a longer string. -/
theorem unbe_slice_mid (a c : Bytes) (n v i j : Nat) (hi : a.length = i) (hj : i + n = j) (hv : v < 256 ^ n) :
    unbe (slice (a ++ (be n v ++ c)) i j) = v := by
  subst hi
  rw [slice_append_right _ _ _ _ rfl, ← hj, Nat.add_sub_cancel_left, List.take_append_of_le_length (by simp),
      List.take_of_length_le (by simp), unbe_be_of_lt hv]

/-- R10: `k` is `ceil(F / T)` exactly where `(k - 1) * T < F ≤ k * T`. -/
theorem ceilDiv_unique {F T k : Nat} (hT : 1 ≤ T) (hF : 1 ≤ F) (h1 : (k - 1) * T < F) (h2 : F ≤ k * T) :
    ceilDiv F T = k := by
  have a := (ceilDiv_le_iff hT k).2 h2
  have b := le_ceilDiv_mul (a := F) hT
  have c := ceilDiv_pos hF hT
  by_contra hne
  have : ceilDiv F T ≤ k - 1 := by omega
  have := (ceilDiv_le_iff hT (k-1)).1 this
  omega

theorem lt_ceilDiv_iff {a b K : Nat} (hb : 1 ≤ b) : K < ceilDiv a b ↔ K * b < a := by
  rw [← not_le, ceilDiv_le_iff hb, not_le]

end Sys2Proof.Laws
end

