-- ==== Sys2Proof/Laws/CodeExists.lean ====
section
/-! SUPPORT. The laws of `ErasureCode` can be met for every value of the parameters, by a code found by search. Config.lean
uses `existingCode` ONLY to show that the type `ErasureCode params` is not empty, so that an uninterpreted member of it can be
declared; nothing of this code is visible through that member. -/

namespace Sys2Proof.Laws

open Sys2Proof.Machine

/-- Source symbol `i` of a payload, as a number below `256^T`. -/
def digit (P : Bytes) (T i : Nat) : Fin (256 ^ T) :=
  ⟨unbe (slice P (i * T) ((i + 1) * T)) % 256 ^ T, Nat.mod_lt _ (by positivity)⟩

/-- A payload of `k` symbols as one number. -/
def message (P : Bytes) (T k : Nat) : Fin ((256 ^ T) ^ k) :=
  finFunctionFinEquiv fun i : Fin k => digit P T i

theorem digit_length {P : Bytes} {T k i : Nat} (hP : P.length = k * T) (hi : i < k) :
    (slice P (i * T) ((i + 1) * T)).length = T := by
  have h : (i + 1) * T ≤ P.length := by rw [hP]; exact Nat.mul_le_mul_right _ hi
  rw [slice_length _ _ _ h, Nat.succ_mul]; omega

/-- A payload of `k` symbols is determined by its symbols. -/
theorem eq_of_slices_eq {T k : Nat} {P Q : Bytes} (hP : P.length = k * T) (hQ : Q.length = k * T)
    (h : ∀ i < k, slice P (i * T) ((i + 1) * T) = slice Q (i * T) ((i + 1) * T)) : P = Q := by
  induction k generalizing P Q with
  | zero =>
    rw [Nat.zero_mul] at hP hQ
    rw [List.length_eq_zero_iff.1 hP, List.length_eq_zero_iff.1 hQ]
  | succ k ih =>
    have h0 : P.take T = Q.take T := by simpa [slice] using h 0 (by omega)
    have hsh : ∀ (R : Bytes) (i : Nat), slice (R.drop T) (i * T) ((i + 1) * T)
        = slice R ((i + 1) * T) ((i + 1 + 1) * T) := by
      intro R i
      have e1 : T + i * T = (i + 1) * T := by ring
      have e2 : (i + 1) * T - i * T = (i + 1 + 1) * T - (i + 1) * T := by
        rw [Nat.succ_mul, Nat.succ_mul (i + 1)]; omega
      simp only [slice, List.drop_drop, e1, e2]
    have hd : P.drop T = Q.drop T := by
      apply ih
      · rw [List.length_drop, hP, Nat.succ_mul]; omega
      · rw [List.length_drop, hQ, Nat.succ_mul]; omega
      · intro i hi
        rw [hsh, hsh]
        exact h (i + 1) (by omega)
    rw [← List.take_append_drop T P, ← List.take_append_drop T Q, h0, hd]

theorem eq_of_message_eq {T k : Nat} {P Q : Bytes} (hP : P.length = k * T) (hQ : Q.length = k * T)
    (h : message P T k = message Q T k) : P = Q := by
  refine eq_of_slices_eq hP hQ fun i hi => ?_
  have hd : digit P T i = digit Q T i := congrFun (finFunctionFinEquiv.injective h) (⟨i, hi⟩ : Fin k)
  have lP := digit_length hP hi
  have lQ := digit_length hQ hi
  have bP := unbe_lt (slice P (i * T) ((i + 1) * T))
  have bQ := unbe_lt (slice Q (i * T) ((i + 1) * T))
  rw [lP] at bP
  rw [lQ] at bQ
  have hv := congrArg Fin.val hd
  simp only [digit, Nat.mod_eq_of_lt bP, Nat.mod_eq_of_lt bQ] at hv
  exact unbe_inj (lP.trans lQ.symm) hv

/-- A symbol table: for each identifier below `n` and each message (as a number below `N`), a symbol (as a number below
`q`). -/
abbrev SymbolTable (q N n : Nat) := Fin n → Fin N → Fin q

/-- The table is systematic, and any `k` of its symbols determine the message. -/
def AnyKTable (q k n : Nat) (tab : SymbolTable q (q ^ k) n) : Prop :=
  (∀ (i : Fin n) (h : i.val < k) (x : Fin (q ^ k)), tab i x = finFunctionFinEquiv.symm x ⟨i.val, h⟩) ∧
  ∀ S : Finset (Fin n), S.card = k → ∀ x y, (∀ e ∈ S, tab e x = tab e y) → x = y

@[reducible] def anyKTableDecidable (q k n : Nat) : DecidablePred (AnyKTable q k n) := fun _ => by
  unfold AnyKTable; infer_instance

/-- Is there such a table? -/
@[reducible] def TablePossible (q k n : Nat) : Prop := ∃ tab, AnyKTable q k n tab

@[reducible] def tablePossibleDecidable (q k : Nat) : DecidablePred (TablePossible q k) := fun n =>
  @Fintype.decidableExistsFintype _ _ (anyKTableDecidable q k n) inferInstance

theorem tablePossible_zero (q k : Nat) : TablePossible q k 0 := by
  refine ⟨fun i => i.elim0, fun i => i.elim0, fun S hS x y _ => ?_⟩
  have hk : k = 0 := by
    rw [← hS, Finset.card_eq_zero]
    exact Finset.eq_empty_of_isEmpty S
  subst hk
  have : q ^ 0 = 1 := pow_zero q
  omega

/-- How many symbols of `T` bytes, up to ESI_LIMIT, some code has of which any `k` suffice. -/
def bestLength (params : Params) (T k : Nat) : Nat :=
  @Nat.findGreatest (TablePossible (256 ^ T) k) (tablePossibleDecidable _ _) params.esiLimit

theorem bestLength_possible (params : Params) (T k : Nat) :
    TablePossible (256 ^ T) k (bestLength params T k) :=
  @Nat.findGreatest_spec 0 (TablePossible (256 ^ T) k) (tablePossibleDecidable _ _) _ (Nat.zero_le _)
    (tablePossible_zero _ _)

/-- A table of that many symbols, found by search. -/
def bestTable (params : Params) (T k : Nat) : SymbolTable (256 ^ T) ((256 ^ T) ^ k) (bestLength params T k) :=
  @Encodable.choose _ (AnyKTable (256 ^ T) k _) inferInstance (anyKTableDecidable _ _ _) (bestLength_possible params T k)

theorem bestTable_spec (params : Params) (T k : Nat) :
    AnyKTable (256 ^ T) k (bestLength params T k) (bestTable params T k) :=
  @Encodable.choose_spec _ (AnyKTable (256 ^ T) k _) inferInstance (anyKTableDecidable _ _ _)
    (bestLength_possible params T k)

/-- The repair symbol `e` that a table gives: its column, and zeros beyond it. -/
def tableColumn {T k n : Nat} (tab : SymbolTable (256 ^ T) ((256 ^ T) ^ k) n) (P : Bytes) (e : Nat) : Bytes :=
  if h : e < n then be T (tab ⟨e, h⟩ (message P T k)).val else zeros T

theorem tableColumn_length {T k n : Nat} (tab : SymbolTable (256 ^ T) ((256 ^ T) ^ k) n) (P e) :
    (tableColumn tab P e).length = T := by
  unfold tableColumn; split <;> simp

/-- In the table's range a symbol, source or repair, is its table column. -/
theorem table_symbol {repair} {T k n : Nat} {tab : SymbolTable (256 ^ T) ((256 ^ T) ^ k) n} {P : Bytes} {e : Nat}
    (hrep : ∀ P e, repair P T k e = tableColumn tab P e) (ht : AnyKTable (256 ^ T) k n tab) (he : e < n)
    (hP : P.length = k * T) : codeSymbol repair P T k e = be T (tab ⟨e, he⟩ (message P T k)).val := by
  unfold codeSymbol
  split
  · rename_i hek
    have hs := ht.1 ⟨e, he⟩ hek (message P T k)
    rw [hs]
    simp only [message, Equiv.symm_apply_apply, digit]
    have hl := digit_length hP hek
    have hlt := unbe_lt (slice P (e * T) ((e + 1) * T))
    rw [hl] at hlt
    rw [Nat.mod_eq_of_lt hlt, be_unbe_of_length hl]
  · simp [hrep, tableColumn, he]

/-- A table makes a code of whose symbols any `k` suffice. -/
theorem table_anyK {repair} {T k n : Nat} {tab : SymbolTable (256 ^ T) ((256 ^ T) ^ k) n}
    (hrep : ∀ P e, repair P T k e = tableColumn tab P e) (ht : AnyKTable (256 ^ T) k n tab) :
    AnyKSuffice repair T k n := by
  intro P Q hP hQ es hnd hlen hes
  obtain ⟨S, hSes, hScard⟩ := Finset.exists_subset_card_eq (s := es.toFinset) (n := k)
    (by rw [List.toFinset_card_of_nodup hnd]; exact hlen)
  have hS : ∀ e ∈ S, e ∈ es := fun e he => List.mem_toFinset.1 (hSes he)
  let S' : Finset (Fin n) := S.attachFin fun e he => (hes e (hS e he)).1
  refine eq_of_message_eq hP hQ (ht.2 S' (by simp [S', hScard]) _ _ fun e he => ?_)
  have heS : e.val ∈ S := by simpa [S'] using he
  have h := (hes e.val (hS _ heS)).2
  rw [table_symbol hrep ht e.isLt hP, table_symbol hrep ht e.isLt hQ] at h
  have h2 := congrArg unbe h
  rw [unbe_be_of_lt (Fin.isLt _), unbe_be_of_lt (Fin.isLt _)] at h2
  exact Fin.ext h2

theorem anyKSuffice_mono {repair} {T k n m : Nat} (h : AnyKSuffice repair T k n) (hm : m ≤ n) :
    AnyKSuffice repair T k m :=
  fun P Q hP hQ es h1 h2 h3 => h P Q hP hQ es h1 h2 fun e he => ⟨lt_of_lt_of_le (h3 e he).1 hm, (h3 e he).2⟩

/-- Every message is the message of a payload. -/
theorem exists_payload (T k : Nat) (x : Fin ((256 ^ T) ^ k)) : ∃ P : Bytes, P.length = k * T ∧ message P T k = x := by
  let σ : Fin (2 ^ 8) ≃ BitVec 8 := ⟨BitVec.ofFin, BitVec.toFin, fun _ => rfl, fun _ => rfl⟩
  let _ : Fintype (BitVec 8) := Fintype.ofEquiv _ σ
  have hcard : Fintype.card (BitVec 8) = 256 := by rw [Fintype.card_congr σ.symm, Fintype.card_fin]; norm_num
  let f : List.Vector (BitVec 8) (k * T) → Fin ((256 ^ T) ^ k) := fun v => message v.toList T k
  have hinj : Function.Injective f := fun v w h =>
    List.Vector.eq _ _ (eq_of_message_eq v.toList_length w.toList_length h)
  have hbij := (Fintype.bijective_iff_injective_and_card f).2
    ⟨hinj, by rw [card_vector, hcard, Fintype.card_fin, ← pow_mul, Nat.mul_comm T k]⟩
  obtain ⟨v, hv⟩ := hbij.2 x
  exact ⟨v.toList, v.toList_length, hv⟩

/-- A code of whose first `n` symbols any `k` suffice makes a table. -/
theorem tablePossible_of_lawTwo {T k n : Nat} (h : LawTwoPossible T k n) : TablePossible (256 ^ T) k n := by
  obtain ⟨repair, hlen, hany⟩ := h
  choose pay hpay hmsg using exists_payload T k
  have hsym : ∀ (i : Fin n) x, (codeSymbol repair (pay x) T k i).length = T := by
    intro i x
    unfold codeSymbol
    split
    · rename_i hi; exact digit_length (hpay x) hi
    · exact hlen _ _ (hpay x) (by omega) i.isLt
  have hlt : ∀ (i : Fin n) x, unbe (codeSymbol repair (pay x) T k i) < 256 ^ T := by
    intro i x
    have h := unbe_lt (codeSymbol repair (pay x) T k i)
    rwa [hsym] at h
  refine ⟨fun i x => ⟨unbe (codeSymbol repair (pay x) T k i), hlt i x⟩, fun i hi x => ?_, fun S hS x y hxy => ?_⟩
  · have h : digit (pay x) T i = finFunctionFinEquiv.symm x ⟨i.val, hi⟩ := by
      have hx : (fun j : Fin k => digit (pay x) T j) = finFunctionFinEquiv.symm x :=
        (Equiv.eq_symm_apply _).2 (hmsg x)
      exact congrFun hx ⟨i.val, hi⟩
    rw [← h]
    apply Fin.ext
    have h1 : codeSymbol repair (pay x) T k i = slice (pay x) (i.val * T) ((i.val + 1) * T) := if_pos hi
    have h2 := hlt i x
    rw [h1] at h2
    simp only [h1, digit, Nat.mod_eq_of_lt h2]
  · have hP := hany (pay x) (pay y) (hpay x) (hpay y) (S.toList.map Fin.val)
      (S.nodup_toList.map fun a b hab => Fin.ext hab) (by simp [hS]) (by
        intro e he
        obtain ⟨i, hi, rfl⟩ := List.mem_map.1 he
        have h := congrArg Fin.val (hxy i (Finset.mem_toList.1 hi))
        exact ⟨i.isLt, unbe_inj ((hsym i x).trans (hsym i y).symm) h⟩)
    rw [← hmsg x, ← hmsg y, hP]

/-- Every byte string of a length. -/
def allStrings : Nat → List Bytes
  | 0 => [[]]
  | n + 1 => (List.range 256).flatMap fun x => (allStrings n).map fun b => BitVec.ofNat 8 x :: b

theorem mem_allStrings {n : Nat} {b : Bytes} : b ∈ allStrings n ↔ b.length = n := by
  induction n generalizing b with
  | zero => simp [allStrings]
  | succ n ih =>
    simp only [allStrings, List.mem_flatMap, List.mem_range, List.mem_map]
    constructor
    · rintro ⟨x, -, c, hc, rfl⟩
      simp [ih.1 hc]
    · intro h
      cases b with
      | nil => simp at h
      | cons x c =>
        exact ⟨x.toNat, x.isLt, c, ih.2 (by simpa using h), by simp⟩

/-- The repair symbols of the existing code. -/
def existingRepair (params : Params) (P : Bytes) (T k e : Nat) : Bytes :=
  tableColumn (bestTable params T k) P e

/-- Does a symbol map hold only symbols of the payload `P`? -/
def isGenuine (params : Params) (P : Bytes) (T k : Nat) (M : Store 24 Bytes) : Bool :=
  M.all fun p => decide (p.2 = codeSymbol (existingRepair params) P T k p.1.toNat)

theorem isGenuine_iff {params P T k M} :
    isGenuine params P T k M = true ↔ Genuine (existingRepair params) P T k M := by
  simp [isGenuine, Genuine]

/-- The decoder of the existing code: search for a payload the map is genuine for. -/
def existingDecode (params : Params) (_ F T k : Nat) (M : Store 24 Bytes) : Option Bytes :=
  ((allStrings (k * T)).find? fun P => isGenuine params P T k M).map fun P => P.take F

/-- A code that meets every law of `ErasureCode`. -/
def existingCode (params : Params) : ErasureCode params where
  repair := existingRepair params
  decode := existingDecode params
  repair_length := fun P T k e _ _ _ _ => tableColumn_length (bestTable params T k) P e
  decode_length := by
    intro n F T k M x _ _ hF _ _ h
    simp only [existingDecode, Option.map_eq_some_iff] at h
    obtain ⟨P, hP, rfl⟩ := h
    have := mem_allStrings.1 (List.mem_of_find?_eq_some hP)
    simp [this, hF]
  any_k := by
    intro T k n _ hn h
    refine anyKSuffice_mono (table_anyK (fun _ _ => rfl) (bestTable_spec params T k)) ?_
    exact @Nat.le_findGreatest _ (TablePossible (256 ^ T) k) (tablePossibleDecidable _ _) _ hn (tablePossible_of_lawTwo h)
  decode_determined := by
    intro n F T k M P _ _ _ hP _ _ _ hgen hdet
    have hex : ((allStrings (k * T)).find? fun P => isGenuine params P T k M).isSome := by
      rw [List.find?_isSome]
      exact ⟨P, mem_allStrings.2 hP, isGenuine_iff.2 hgen⟩
    obtain ⟨Q, hQ⟩ := Option.isSome_iff_exists.1 hex
    have hg : isGenuine params Q T k M = true := by simpa using List.find?_some hQ
    rw [existingDecode, hQ, Option.map_some,
      hdet Q (mem_allStrings.1 (List.mem_of_find?_eq_some hQ)) (isGenuine_iff.1 hg)]

end Sys2Proof.Laws
end

