-- ==== Sys2Proof/Config.lean ====
section
/-! DEFINITION. What the source leaves to the implementation (R8), the fixed sizes (R7, R8), and the free values. -/

namespace Sys2Proof

namespace Config

/-- R8: the reference values of the open parameters (K_MAX 56403, ESI_LIMIT 2^24, SYMBOL_OVERHEAD 0). PRESUMED (assumption 2). -/
def referenceParams : Params := { kMax := 56403, esiLimit := 16777216, symbolOverhead := 0 }

/-- R8: INITIAL_BLOCK_ID, the encoder identifier after CONFIGURE. -/
def initialBlockId : BlockId := 0

/-- R7: MAX_DATAGRAMS, because the directory's count is one byte. -/
def maxDatagrams : Nat := 255

/-- R7: MAX_DATA, because every end offset is 16 bits. -/
def maxData : Nat := 65535

/-- R8: WIRE_HDR_LEN. -/
def wireHdrLen : Nat := 5

/-- R8: DYN_HDR_LEN. -/
def dynHdrLen : Nat := 12

/-- R8: PAYLOAD_ID_LEN, block id plus ESI. -/
def payloadIdLen : Nat := 4

/-- R30, R106: the contents of a state element that the spec calls unspecified, an uninterpreted value of its type for
each draw number (assumption 4). -/
opaque unspecified (α : Type) [Inhabited α] : Nat → α

/-- R70: an uninterpreted erasure code for each value of the parameters; the instance argument only shows that the type
is not empty (assumptions 5, 16). -/
opaque codeOf [∀ p, Inhabited (ErasureCode p)] : (p : Params) → ErasureCode p

/-- R8, R70: CODE, the erasure code of an implementation with these parameters. Nothing is known of it but the laws of
`ErasureCode`. -/
def code (p : Params) : ErasureCode p := @codeOf (fun p => ⟨Laws.existingCode p⟩) p

end Config

end Sys2Proof
end

