-- ==== Sys2Proof/Machine/State.lean ====
section
/-! DEFINITION. Every piece of state the spec gives the block (10_state.md), the interface of its command port (R50, R53,
R105), the reasons a step can stop, and the state right after power-on reset (R30, R106). -/

namespace Sys2Proof.Machine

/-- R95, R97: the block has no fault. No command, legal or not, leads to anything but a status code, so no constructor
exists: that no step faults is true by the type. -/
inductive Fault : Type
  deriving DecidableEq, Repr

/-- Why a step has no meaning. -/
inductive Refusal where
  /-- Raised by an arm of `exec` for a command that has no meaning yet (none is left). Safe: the model stops. -/
  | notModelled (mnemonic : String)
  /-- Raised by `deliver` when the host presents two commands at once (R39, R109, I8: not defined, no such step).
  Safe: the model stops where the spec says nothing. -/
  | simultaneousCommands
  deriving DecidableEq, Repr

/-- R94: the sixteen outcomes of a command. -/
inductive Status where
  | ok | needMore | decoded | decodedBaddir
  | dropForeign | dropShort | dropBadhdr | dropDup | dropBadparam | dropSymlen | dropBadsym | dropNofec
  | encOversize | cfgInvalid | errUnconfigured | errIllegal
  deriving DecidableEq, Repr

/-- R53: a response before it is written as a frame: STATUS, AUX and the output items in emission order. -/
structure Response where
  status : Status
  aux : Byte
  items : List Bytes
  deriving DecidableEq, Repr

/-- R105, R106: what the host can do to the block. -/
inductive HostEvent where
  /-- R50: one command frame presented at the command port. -/
  | command (frame : Bytes)
  /-- R106: power-on reset, the one event outside the command port. -/
  | powerOn
  /-- R39, R109: two frames presented at once, which the host must not do. -/
  | simultaneous (first second : Bytes)
  deriving DecidableEq, Repr

/-- R42: a wire header of 40 bits, the MAGIC field and then the FLAG byte. -/
structure WireHeader where
  magic : BitVec 32
  flag : Byte
  deriving DecidableEq, Repr, Inhabited

/-- R26: a decode session. `F` is the transfer length, `T` the symbol size, `K` is `ceil(F / T)`, `syms` the symbols
received, by ESI. -/
structure Session where
  F : Nat
  T : Nat
  K : Nat
  syms : Store 24 Bytes
  deriving DecidableEq, Repr, Inhabited

/-- R16 to R22: the configuration registers and the registers CONFIGURE derives from them. -/
structure ConfigRegs where
  magic : BitVec 32
  mode : BitVec 8
  minBlockSize : BitVec 32
  packetSize : BitVec 16
  repairCount : BitVec 16
  staticBlockSize : BitVec 32
  staticPacketSize : BitVec 16
  hdrPlain : WireHeader
  hdrFec : WireHeader
  symT : BitVec 16
  deriving DecidableEq, Repr, Inhabited

/-- R24, R25: the encoder's state: ENC_ID and the accumulation buffer. -/
structure Encoder where
  id : BlockId
  accData : Bytes
  accOffs : List (BitVec 16)
  deriving DecidableEq, Repr, Inhabited

/-- R26, R27: the decoder's state: SESS and DECODED. -/
structure Decoder where
  sess : Store 8 Session
  decoded : IdSet 8
  deriving DecidableEq, Repr, Inhabited

/-- The block. `configured` to `dec` are the spec's state (10_state.md). `params` holds the implementation's open
parameters (R8) and is written by nothing. `draws` numbers the free values drawn so far. `port` holds the events the host
has still to present, first one first (R12, R38), and `response` the response to the last command (R53); these four are
the model's own fields. -/
structure State where
  configured : Bool
  cfg : ConfigRegs
  enc : Encoder
  dec : Decoder
  params : Params
  draws : Nat
  port : List HostEvent
  response : Option Response
  deriving DecidableEq, Repr

/-- R30, R106: right after power-on reset CONFIGURED is 0. Every other element is unspecified and never read; its value
here is a DESIGN CHOICE (assumption 1), the parameters' values are PRESUMED (assumption 2). -/
def State.reset : State where
  configured := false
  cfg :=
    { magic := 0, mode := 0, minBlockSize := 0, packetSize := 0, repairCount := 0, staticBlockSize := 0,
      staticPacketSize := 0, hdrPlain := { magic := 0, flag := 0 }, hdrFec := { magic := 0, flag := 0 }, symT := 0 }
  enc := { id := 0, accData := [], accOffs := [] }
  dec := { sess := [], decoded := [] }
  params := Config.referenceParams
  draws := 0
  port := []
  response := none

end Sys2Proof.Machine
end

