-- ==== Sys2Proof/Machine/Cache.lean ====
section
/-! DEFINITION. The session cache (43_session_cache.md): circular identifiers, the eviction window and the sweep. -/

namespace Sys2Proof.Machine

/-- R84: the steps from `c` forward to `x`, 0 to 255. -/
def fwd (x c : BlockId) : Nat :=
  (x.toNat + 256 - c.toNat) % 256

/-- R84: the signed circular offset of `x` from `c`, -128 to 127. -/
def delta (x c : BlockId) : Int :=
  if fwd x c < 128 then (fwd x c : Int) else (fwd x c : Int) - 256

/-- R85: is `x` in the eviction window centred on `c`? -/
def inWindow (x c : BlockId) : Bool :=
  decide ((delta x c).natAbs ≤ 63)

/-- R85: the source's own form of the window predicate, on raw values with the wrap made explicit. -/
def inWindowSourceForm (x c : BlockId) : Bool :=
  let lo := (c.toNat + 256 - 64) % 256
  let hi := (c.toNat + 64) % 256
  if lo < hi then decide (lo < x.toNat ∧ x.toNat < hi) else decide (x.toNat > lo ∨ x.toNat < hi)

/-- R86: the eviction sweep centred on `c`: every session and decoded marker outside the window is removed. -/
def sweep (c : BlockId) (dec : Decoder) : Decoder where
  sess := storeKeep (fun x => inWindow x c) dec.sess
  decoded := idSetKeep (fun x => inWindow x c) dec.decoded

end Sys2Proof.Machine
end

