-- ==== Sys2Proof/Machine/Code.lean ====
section
/-! DEFINITION. The two operations of the erasure code CODE (R70), over the uninterpreted `Config.code`. -/

namespace Sys2Proof.Machine

/-- R70: `CODE.sym(P, T, k, e)` of the implementation's code. -/
def codeSym (params : Params) (P : Bytes) (T k e : Nat) : Bytes :=
  codeSymbol (Config.code params).repair P T k e

/-- Are the source symbols `0 .. k-1` the first `k` entries of a symbol map? -/
def sourcesPresent (k : Nat) (M : Store 24 Bytes) : Bool :=
  (M.take k).map (fun p => p.1.toNat) == List.range k

/-- The payload that the first `k` symbols of a map spell. -/
def sourcePayload (k : Nat) (M : Store 24 Bytes) : Bytes :=
  (M.take k).flatMap (·.2)

/-- R70: the call of `CODE.decode(F, T, k, M)` that draws number `draw`. Where the map holds every source symbol and each
further symbol is the code's own for that payload, laws 1 and 2 give the result, which is computed here; in every other
case the code decides, under law 2 and else as a draw (law 3; assumptions 5 to 8). -/
def codeDecode (params : Params) (draw F T k : Nat) (M : Store 24 Bytes) : Option Bytes :=
  if sourcesPresent k M && (M.drop k).all (fun p => p.2 == codeSym params (sourcePayload k M) T k p.1.toNat) then
    some ((sourcePayload k M).take F)
  else (Config.code params).decode draw F T k M

end Sys2Proof.Machine
end

