-- ==== Sys2Proof/Machine/Flags.lean ====
section
/-! DEFINITION. The block keeps no flag register (R14). What stands in its place is here: the status codes (R94), the AUX
bytes, the MODE bits (R17), and the response frame (R53). -/

namespace Sys2Proof.Machine

/-- R94: the code of a status. -/
def Status.code : Status → Byte
  | .ok => 0x00
  | .needMore => 0x01
  | .decoded => 0x02
  | .decodedBaddir => 0x03
  | .dropForeign => 0x10
  | .dropShort => 0x11
  | .dropBadhdr => 0x12
  | .dropDup => 0x13
  | .dropBadparam => 0x14
  | .dropSymlen => 0x15
  | .dropBadsym => 0x16
  | .dropNofec => 0x17
  | .encOversize => 0x20
  | .cfgInvalid => 0x30
  | .errUnconfigured => 0x31
  | .errIllegal => 0x32

/-- R94: the eight statuses of the class "drop". -/
def Status.isDrop : Status → Bool
  | .dropForeign | .dropShort | .dropBadhdr | .dropDup | .dropBadparam | .dropSymlen | .dropBadsym | .dropNofec => true
  | .ok | .needMore | .decoded | .decodedBaddir | .encOversize | .cfgInvalid | .errUnconfigured | .errIllegal => false

/-- R53: an item of a response frame: its 32-bit length, then its bytes. -/
def itemFrame (item : Bytes) : Bytes :=
  be 4 item.length ++ item

/-- R53: `RESP = [STATUS] ‖ [AUX] ‖ be4(n) ‖ item_1 ‖ … ‖ item_n`. -/
def Response.frame (r : Response) : Bytes :=
  r.status.code :: r.aux :: (be 4 r.items.length ++ r.items.flatMap itemFrame)

/-- R17: FEC_EN, bit 0 of a MODE value. -/
def modeFec (mode : BitVec 8) : Bool := mode.getLsbD 0

/-- R17: DYNAMIC, bit 1 of a MODE value. -/
def modeDynamic (mode : BitVec 8) : Bool := mode.getLsbD 1

/-- R17: are the reserved bits MODE[7:2] all 0? -/
def modeReservedClear (mode : BitVec 8) : Bool := mode.extractLsb' 2 6 == 0

/-- R59: PARSE's AUX, 0x01 for a FEC packet. -/
def fecAux (isFec : Bool) : Byte := if isFec then 0x01 else 0x00

/-- R91: INSPECT's AUX: bit 0 for a live session, bit 1 for a decoded marker. -/
def inspectAux (live decoded : Bool) : Byte :=
  (if live then 0x01 else 0x00) ||| (if decoded then 0x02 else 0x00)

end Sys2Proof.Machine
end

