-- ==== Sys2Proof/Machine/Operands.lean ====
section
/-! DEFINITION. Reading the byte strings a command carries: the wire header of a radio packet (R42, R59) and the fields of a
coded remainder (R45, R46, R47, R72). -/

namespace Sys2Proof.Machine

/-- R42: the five bytes of a wire header. -/
def WireHeader.bytes (h : WireHeader) : Bytes :=
  be 4 h.magic.toNat ++ [h.flag]

/-- R42, R43: the wire header with a magic, FEC-tagged or plain. -/
def wireHeader (magic : BitVec 32) (fec : Bool) : WireHeader :=
  { magic := magic, flag := if fec then 0x01 else 0x00 }

/-- R59: check and strip the wire header. Answers the FLAG as `is_fec` and the remainder, or the drop that the first
failing check raises: too short, foreign magic, reserved flag. -/
def parseWire (magic : BitVec 32) (b : Bytes) : Except Status (Bool × Bytes) :=
  if b.length < Config.wireHdrLen then .error .dropShort
  else if unbe (slice b 0 4) ≠ magic.toNat then .error .dropForeign
  else
    let flag := b.getD 4 0
    if flag = 0x00 then .ok (false, b.drop Config.wireHdrLen)
    else if flag = 0x01 then .ok (true, b.drop Config.wireHdrLen)
    else .error .dropBadhdr

/-- R45, R72: what a coded remainder says: transfer length, symbol size, block id, ESI and symbol. -/
structure Coded where
  F : Nat
  T : Nat
  id : BlockId
  esi : Esi
  sym : Bytes
  deriving DecidableEq, Repr

/-- R47, R72: the payload identifier and the symbol of a coded remainder, from byte `h` on. -/
def codedAt (F T : Nat) (C : Bytes) (h : Nat) : Coded where
  F := F
  T := T
  id := C.getD h 0
  esi := BitVec.ofNat 24 (unbe (slice C (h + 1) (h + Config.payloadIdLen)))
  sym := C.drop (h + Config.payloadIdLen)

/-- R72: the fields of a coded remainder, `none` where it is too short to hold its header and payload identifier. In
Dynamic mode F and T come from the 12-byte header (R46), whose bytes 5 and 8 to 11 are ignored; in Static mode they are
the configured constants. -/
def codedFields (cfg : ConfigRegs) (C : Bytes) : Option Coded :=
  if modeDynamic cfg.mode then
    if C.length < Config.dynHdrLen + Config.payloadIdLen then none
    else some (codedAt (unbe (slice C 0 5)) (unbe (slice C 6 8)) C Config.dynHdrLen)
  else
    if C.length < Config.payloadIdLen then none
    else some (codedAt cfg.staticBlockSize.toNat cfg.staticPacketSize.toNat C 0)

end Sys2Proof.Machine
end

