-- ==== Sys2Proof/Machine/Ops.lean ====
section
/-! DEFINITION. The operations that the commands share: finishing a command with its response (R11, R53), the CONFIGURED
check (R15, R96), the named updates of State, power-on reset (R106). The block takes no exceptions (R97, R98): `raise`, a
response with no items, stands in the place of one, and there is no return. -/

namespace Sys2Proof.Machine

/-- R11, R53: `finish(st)`: the command ends with a status, an AUX byte and its items; everything written so far stays. -/
def State.finish (s : State) (st : Status) (aux : Byte) (items : List Bytes) : State :=
  { s with response := some { status := st, aux := aux, items := items } }

/-- R11, R97: `raise st`: a check ends the command with a status and no items. -/
def State.raise (s : State) (st : Status) (aux : Byte) : State :=
  s.finish st aux []

/-- The encoder's state replaced. -/
def State.withEnc (s : State) (enc : Encoder) : State :=
  { s with enc := enc }

/-- The decoder's state replaced, and the draws that the command took counted. -/
def State.withDec (s : State) (dec : Decoder) (draws : Nat) : State :=
  { s with dec := dec, draws := draws }

/-- R30, R90, R106: CONFIGURED becomes 0 and every other element of the spec's state is unspecified: a free value each. -/
def State.unconfigure (s : State) : State :=
  { s with
    configured := false
    cfg := Config.unspecified ConfigRegs s.draws
    enc := Config.unspecified Encoder s.draws
    dec := Config.unspecified Decoder s.draws
    draws := s.draws + 1 }

/-- R90, R107: a configuration is loaded: the registers take it, the encoder and the decoder start afresh. -/
def State.construct (s : State) (cfg : ConfigRegs) : State :=
  { s with
    configured := true
    cfg := cfg
    enc := { id := Config.initialBlockId, accData := [], accOffs := [] }
    dec := { sess := [], decoded := [] } }

/-- R106: power-on reset. No command is running, so there is no response to it. -/
def State.powerOn (s : State) : State :=
  { s.unconfigure with response := none }

/-- R15, R96: with CONFIGURED = 0 a command other than CONFIGURE finishes with ERR_UNCONFIGURED and changes nothing. -/
def State.ifConfigured (s t : State) : Host.Outcome State Fault Refusal :=
  if s.configured then .next t else .next (s.raise .errUnconfigured 0)

/-- R52: an illegal frame finishes with ERR_ILLEGAL and changes nothing. -/
def State.illegal (s : State) : Host.Outcome State Fault Refusal :=
  .next (s.raise .errIllegal 0)

end Sys2Proof.Machine
end

