-- ==== Sys2Proof/Machine/BlockDecoder.lean ====
section
/-! DEFINITION. The block decoder (42_decoder.md): DEC_FEED and its steps. It reads the configuration registers and
parameters and reads and writes the decoder's state alone (R3). -/

namespace Sys2Proof.Machine

/-- R74: the candidate session for a block that has none, `none` where its parameters are refused. -/
def newSession (params : Params) (F T : Nat) : Option Session :=
  if T = 0 ∨ F = 0 then none
  else if ceilDiv F T > params.kMax then none
  else some { F := F, T := T, K := ceilDiv F T, syms := [] }

/-- R74: the session a packet belongs to: the live one, whatever the packet says of F and T, or else the candidate. -/
def sessionFor (params : Params) (dec : Decoder) (c : Coded) : Option Session :=
  match storeGet c.id dec.sess with
  | some e => some e
  | none => newSession params c.F c.T

/-- R78: a symbol added to a session; the first symbol stored for an ESI is kept. -/
def Session.feed (e : Session) (esi : Esi) (sym : Bytes) : Session :=
  match storeGet esi e.syms with
  | some _ => e
  | none => { e with syms := storePut esi sym e.syms }

/-- R81: consecutive offset windows cut from the data region `B[0 .. Dlen)`, from `lo` on; `none` is BAD. -/
def cutWindows (B : Bytes) (Dlen : Nat) : Nat → List Nat → Option (List Bytes)
  | _, [] => some []
  | lo, o :: os =>
    if o < lo ∨ o > Dlen then none else (cutWindows B Dlen o os).map fun out => slice B lo o :: out

/-- R81: ParseDir, the directory parser; `none` is BAD. -/
def parseDir (B : Bytes) : Option (List Bytes) :=
  let L := B.length
  if L < 1 then none
  else
    let N := (B.getD (L - 1) 0).toNat
    if L < 1 + 2 * N then none
    else
      let Dlen := L - 1 - 2 * N
      cutWindows B Dlen 0 ((List.range N).map fun i => unbe (slice B (Dlen + 2 * i) (Dlen + 2 * i + 2)))

/-- How one DEC_FEED ends: its status, AUX and items, the decoder's state and the number of draws taken so far. -/
structure Feed where
  status : Status
  aux : Byte
  items : List Bytes
  dec : Decoder
  draws : Nat
  deriving DecidableEq, Repr

/-- R71: a drop: no state change, no item. -/
def Feed.drop (st : Status) (aux : Byte) (dec : Decoder) (draws : Nat) : Feed :=
  { status := st, aux := aux, items := [], dec := dec, draws := draws }

/-- R80: Finalize: the session goes, the identifier is marked decoded, the directory is parsed. -/
def finalize (id : BlockId) (B : Bytes) (dec : Decoder) : Status × List Bytes × Decoder :=
  let dec' : Decoder := { sess := storeErase id dec.sess, decoded := idSetInsert id dec.decoded }
  match parseDir B with
  | none => (.decodedBaddir, [], dec')
  | some out => (.decoded, out, dec')

/-- R77 to R82: a symbol that passed every check is fed to its session `e`, a decode is tried where the symbol was new and
the session has enough symbols, and the sweep runs last. DEDUCED (assumption 7): a repeated ESI changes nothing (R36, R78,
D37) and only a new symbol retries a decode (R79, D33), so a repeated one makes no call. -/
def acceptSymbol (params : Params) (c : Coded) (e : Session) (dec : Decoder) (draws : Nat) : Feed :=
  let e' := e.feed c.esi c.sym
  let fed : Decoder := { dec with sess := storePut c.id e' dec.sess }
  if (storeGet c.esi e.syms).isNone ∧ e'.syms.length ≥ e'.K then
    match codeDecode params draws e'.F e'.T e'.K e'.syms with
    | some B =>
      let (st, items, dec') := finalize c.id B fed
      { status := st, aux := c.id, items := items, dec := sweep c.id dec', draws := draws + 1 }
    | none => { status := .needMore, aux := c.id, items := [], dec := sweep c.id fed, draws := draws + 1 }
  else { status := .needMore, aux := c.id, items := [], dec := sweep c.id fed, draws := draws }

/-- R71: DEC_FEED's steps, the checks in the order of R71 and R96. -/
def feedCoded (C : Bytes) (cfg : ConfigRegs) (params : Params) (dec : Decoder) (draws : Nat) : Feed :=
  if !modeFec cfg.mode then Feed.drop .dropNofec 0 dec draws
  else
    match codedFields cfg C with
    | none => Feed.drop .dropShort 0 dec draws
    | some c =>
      if c.id ∈ dec.decoded then Feed.drop .dropDup c.id dec draws
      else
        match sessionFor params dec c with
        | none => Feed.drop .dropBadparam c.id dec draws
        | some e =>
          if c.esi.toNat ≥ params.esiLimit then Feed.drop .dropBadsym c.id dec draws
          else if c.sym.length ≠ e.T then Feed.drop .dropSymlen c.id dec draws
          else acceptSymbol params c e dec draws

/-- R60, R71: the state after DEC_FEED's steps, with its response. -/
def decFeedState (coded : Bytes) (s : State) : State :=
  let f := feedCoded coded s.cfg s.params s.dec s.draws
  (s.withDec f.dec f.draws).finish f.status f.aux f.items

/-- R71: DEC_FEED. -/
def execDecFeed (coded : Bytes) (s : State) : Host.Outcome State Fault Refusal :=
  s.ifConfigured (decFeedState coded s)

end Sys2Proof.Machine
end

