-- ==== Sys2Proof/Machine/BlockEncoder.lean ====
section
/-! DEFINITION. The block encoder (41_encoder.md): MakeDir, BuildBlock, ENC_PUSH and ENC_FLUSH. It reads the configuration
registers and parameters and reads and writes the encoder's state alone (R3). -/

namespace Sys2Proof.Machine

/-- R48, R63: the Block Payload Directory: the end offsets in order, then their count in one byte. -/
def makeDir (offs : List (BitVec 16)) : Bytes :=
  offs.flatMap (fun o => be 2 o.toNat) ++ be 1 offs.length

/-- R49, R65: the block payload B; `none` where a Static block does not fit STATIC_BLOCK_SIZE. -/
def blockPayload (cfg : ConfigRegs) (enc : Encoder) : Option Bytes :=
  let D := enc.accData
  let DIR := makeDir enc.accOffs
  if modeDynamic cfg.mode then some (D ++ DIR)
  else
    let F := cfg.staticBlockSize.toNat
    if D.length + DIR.length > F then none
    else some (D ++ zeros (F - D.length - DIR.length) ++ DIR)

/-- R46: the Dynamic FEC header for transfer length `F` and symbol size `T`. -/
def dynHeader (F T : Nat) : Bytes :=
  be 5 F ++ [0x00] ++ be 2 T ++ [0x01] ++ be 2 1 ++ [0x01]

/-- R45, R65: what stands between the wire header and the payload identifier of a coded packet. -/
def packetExtension (cfg : ConfigRegs) (F : Nat) : Bytes :=
  if modeDynamic cfg.mode then dynHeader F cfg.symT.toNat else []

/-- R45, R47: one coded packet. -/
def codedPacket (cfg : ConfigRegs) (F : Nat) (id : BlockId) (e : Nat) (sym : Bytes) : Bytes :=
  cfg.hdrFec.bytes ++ packetExtension cfg F ++ [id] ++ be 3 e ++ sym

/-- R49, R65: the padded payload `P = B ‖ zeros(k·T - F)`. -/
def paddedPayload (B : Bytes) (T k : Nat) : Bytes :=
  B ++ zeros (k * T - B.length)

/-- R54, R65: the packets of a block in emission order: the source symbols `0 .. k-1`, then the repair symbols
`k .. k+r-1`. -/
def blockPackets (cfg : ConfigRegs) (params : Params) (id : BlockId) (B : Bytes) (k r : Nat) : List Bytes :=
  let T := cfg.symT.toNat
  let P := paddedPayload B T k
  (List.range k).map (fun e => codedPacket cfg B.length id e (slice P (e * T) ((e + 1) * T))) ++
    (List.range' k r).map (fun e => codedPacket cfg B.length id e (codeSym params P T k e))

/-- R65: how BuildBlock ends. -/
inductive BuildResult where
  | empty | built | oversize
  deriving DecidableEq, Repr

/-- R65: BuildBlock's result, the packets it emitted and the encoder's state after it. -/
structure Build where
  result : BuildResult
  packets : List Bytes
  enc : Encoder
  deriving DecidableEq, Repr

/-- R65: Clear(). -/
def Encoder.clear (enc : Encoder) : Encoder :=
  { enc with accData := [], accOffs := [] }

/-- No BuildBlock call: nothing emitted, nothing changed. -/
def Build.skip (enc : Encoder) : Build :=
  { result := .empty, packets := [], enc := enc }

/-- R65: a block that cannot be encoded: the buffer is discarded, ENC_ID stays. -/
def Build.drop (enc : Encoder) : Build :=
  { result := .oversize, packets := [], enc := enc.clear }

/-- R64, R65: BuildBlock. -/
def buildBlock (cfg : ConfigRegs) (params : Params) (enc : Encoder) : Build :=
  if enc.accOffs = [] then Build.skip enc
  else
    match blockPayload cfg enc with
    | none => Build.drop enc
    | some B =>
      let k := ceilDiv B.length cfg.symT.toNat
      let r := cfg.repairCount.toNat
      if k > params.kMax ∨ k + r > params.esiLimit then Build.drop enc
      else
        { result := .built
          packets := blockPackets cfg params enc.id B k r
          enc := { enc.clear with id := enc.id + 1 } }

/-- R67, R68: how many blocks a BuildBlock call built. -/
def Build.count (b : Build) : Nat :=
  if b.result = .built then 1 else 0

/-- R25, R67: a datagram appended to the accumulation buffer, with its end offset. -/
def Encoder.append (enc : Encoder) (d : Bytes) : Encoder :=
  { enc with
    accData := enc.accData ++ d
    accOffs := enc.accOffs ++ [BitVec.ofNat 16 (enc.accData ++ d).length] }

/-- R67: the pre-build: the buffered block is closed first where the datagram would push an end offset past 16 bits. -/
def preBuild (cfg : ConfigRegs) (params : Params) (enc : Encoder) (d : Bytes) : Build :=
  if enc.accData.length + d.length > Config.maxData then buildBlock cfg params enc else Build.skip enc

/-- R67: the build after the datagram is buffered: at the threshold, or at 255 datagrams. -/
def postBuild (cfg : ConfigRegs) (params : Params) (enc : Encoder) : Build :=
  if enc.accData.length ≥ cfg.minBlockSize.toNat ∨ enc.accOffs.length = Config.maxDatagrams then
    buildBlock cfg params enc
  else Build.skip enc

/-- R67, R68: the status after some BuildBlock calls. -/
def buildStatus (results : List BuildResult) : Status :=
  if BuildResult.oversize ∈ results then .encOversize else .ok

/-- R67: ENC_PUSH with FEC enabled. -/
def encPushFec (d : Bytes) (s : State) : State :=
  if d.length > Config.maxData then s.raise .encOversize 0
  else
    let pre := preBuild s.cfg s.params s.enc d
    let post := postBuild s.cfg s.params (pre.enc.append d)
    (s.withEnc post.enc).finish (buildStatus [pre.result, post.result]) (BitVec.ofNat 8 (pre.count + post.count))
      (pre.packets ++ post.packets)

/-- R66: ENC_PUSH with FEC disabled: one plain packet. -/
def encPushPlain (d : Bytes) (s : State) : State :=
  s.finish .ok 0 [s.cfg.hdrPlain.bytes ++ d]

/-- R66, R67: ENC_PUSH. -/
def execEncPush (datagram : Bytes) (s : State) : Host.Outcome State Fault Refusal :=
  s.ifConfigured (if modeFec s.cfg.mode then encPushFec datagram s else encPushPlain datagram s)

/-- R68: ENC_FLUSH with FEC enabled. -/
def encFlushFec (s : State) : State :=
  let b := buildBlock s.cfg s.params s.enc
  (s.withEnc b.enc).finish (buildStatus [b.result]) (BitVec.ofNat 8 b.count) b.packets

/-- R68: ENC_FLUSH. -/
def execEncFlush (s : State) : Host.Outcome State Fault Refusal :=
  s.ifConfigured (if modeFec s.cfg.mode then encFlushFec s else s.finish .ok 0 [])

end Sys2Proof.Machine
end

