-- ==== Sys2Proof/Machine/Control.lean ====
section
/-! DEFINITION. The control commands (44_control.md): CONFIGURE and INSPECT. -/

namespace Sys2Proof.Machine

/-- R90: does CONFIGURE accept? Only the fields the mode uses are checked. -/
def configValid (params : Params) (mode : BitVec 8) (packetSize : BitVec 16) (staticBlockSize : BitVec 32)
    (staticPacketSize : BitVec 16) : Bool :=
  modeReservedClear mode &&
    (if modeFec mode then
      if modeDynamic mode then decide (packetSize.toNat > params.symbolOverhead)
      else
        decide (staticBlockSize.toNat ≥ 1) && decide (staticPacketSize.toNat ≥ 1) &&
          decide (ceilDiv staticBlockSize.toNat staticPacketSize.toNat ≤ params.kMax)
    else true)

/-- R22, R90: the derived register SYM_T. -/
def derivedSymT (params : Params) (mode : BitVec 8) (packetSize staticPacketSize : BitVec 16) : BitVec 16 :=
  if modeFec mode then
    if modeDynamic mode then BitVec.ofNat 16 (packetSize.toNat - params.symbolOverhead) else staticPacketSize
  else 0

/-- R22, R90: the configuration registers that an accepted CONFIGURE leaves. -/
def configRegs (params : Params) (magic : BitVec 32) (mode : BitVec 8) (minBlockSize : BitVec 32)
    (packetSize repairCount : BitVec 16) (staticBlockSize : BitVec 32) (staticPacketSize : BitVec 16) : ConfigRegs where
  magic := magic
  mode := mode
  minBlockSize := minBlockSize
  packetSize := packetSize
  repairCount := repairCount
  staticBlockSize := staticBlockSize
  staticPacketSize := staticPacketSize
  hdrPlain := wireHeader magic false
  hdrFec := wireHeader magic true
  symT := derivedSymT params mode packetSize staticPacketSize

/-- R90: CONFIGURE, the one command accepted with CONFIGURED = 0. -/
def execConfigure (magic : BitVec 32) (mode : BitVec 8) (minBlockSize : BitVec 32) (packetSize repairCount : BitVec 16)
    (staticBlockSize : BitVec 32) (staticPacketSize : BitVec 16) (s : State) : Host.Outcome State Fault Refusal :=
  if configValid s.params mode packetSize staticBlockSize staticPacketSize then
    .next ((s.construct (configRegs s.params magic mode minBlockSize packetSize repairCount staticBlockSize
      staticPacketSize)).finish .ok 0 [])
  else .next (s.unconfigure.raise .cfgInvalid 0)

/-- R91: the 14-byte summary. -/
def inspectItem (id : BlockId) (s : State) : Bytes :=
  let e := storeGet id s.dec.sess
  let nSym := match e with | some e => e.syms.length | none => 0
  let k := match e with | some e => e.K | none => 0
  [s.enc.id] ++ be 1 s.enc.accOffs.length ++ be 2 s.enc.accData.length ++ be 1 s.dec.sess.length ++
    be 1 s.dec.decoded.length ++ be 4 nSym ++ be 4 k

/-- R91: INSPECT. -/
def execInspect (id : BlockId) (s : State) : Host.Outcome State Fault Refusal :=
  s.ifConfigured (s.finish .ok (inspectAux (storeGet id s.dec.sess).isSome (decide (id ∈ s.dec.decoded)))
    [inspectItem id s])

end Sys2Proof.Machine
end

