-- ==== Sys2Proof/Machine/Framing.lean ====
section
/-! DEFINITION. The wire framing commands (40_framing.md): STAMP, PARSE and RX_PACKET. -/

namespace Sys2Proof.Machine

/-- R58: STAMP: the chosen prebuilt header before the payload. -/
def execStamp (fec : Bool) (payload : Bytes) (s : State) : Host.Outcome State Fault Refusal :=
  s.ifConfigured (s.finish .ok 0 [(if fec then s.cfg.hdrFec else s.cfg.hdrPlain).bytes ++ payload])

/-- R59: the state after PARSE. -/
def parseState (bytes : Bytes) (s : State) : State :=
  match parseWire s.cfg.magic bytes with
  | .error st => s.raise st 0
  | .ok (isFec, rem) => s.finish .ok (fecAux isFec) [rem]

/-- R59: PARSE. -/
def execParse (bytes : Bytes) (s : State) : Host.Outcome State Fault Refusal :=
  s.ifConfigured (parseState bytes s)

/-- R60: the state after RX_PACKET: a plain packet is delivered whatever FEC_EN is; a FEC packet is dropped with FEC
disabled and fed to the decoder otherwise. -/
def rxPacketState (packet : Bytes) (s : State) : State :=
  match parseWire s.cfg.magic packet with
  | .error st => s.raise st 0
  | .ok (false, rem) => s.finish .ok 0 [rem]
  | .ok (true, rem) => if modeFec s.cfg.mode then decFeedState rem s else s.raise .dropNofec 0

/-- R60: RX_PACKET. -/
def execRxPacket (packet : Bytes) (s : State) : Host.Outcome State Fault Refusal :=
  s.ifConfigured (rxPacketState packet s)

end Sys2Proof.Machine
end

