-- ==== Sys2Proof/Machine/Dispatch.lean ====
section
/-! DEFINITION. One command, one meaning. -/

namespace Sys2Proof.Machine

def exec (i : Instr) (s : State) : Host.Outcome State Fault Refusal :=
  match i with
  | .configure magic mode minb pkt rep sblk spkt => Sys2Proof.Machine.execConfigure magic mode minb pkt rep sblk spkt s
  | .stamp fec payload => Sys2Proof.Machine.execStamp fec payload s
  | .parse bytes => Sys2Proof.Machine.execParse bytes s
  | .encPush datagram => Sys2Proof.Machine.execEncPush datagram s
  | .encFlush => Sys2Proof.Machine.execEncFlush s
  | .decFeed coded => Sys2Proof.Machine.execDecFeed coded s
  | .rxPacket packet => Sys2Proof.Machine.execRxPacket packet s
  | .inspect id => Sys2Proof.Machine.execInspect id s

end Sys2Proof.Machine
end

