-- ==== Sys2Proof/Machine/Port.lean ====
section
/-! DEFINITION. The command port (R12, R38, R50, R105): what the block does with the event the host presents. -/

namespace Sys2Proof.Machine

/-- R50, R52, R96: one frame: its command if it is legal, ERR_ILLEGAL if not. -/
def runFrame (frame : Bytes) (s : State) : Host.Outcome State Fault Refusal :=
  match decode frame with
  | .ok i => exec i s
  | .error _ => s.illegal

/-- R12, R37, R39, R106: one event of the host, as one atomic step. -/
def deliver (ev : HostEvent) (s : State) : Host.Outcome State Fault Refusal :=
  match ev with
  | .command frame => runFrame frame s
  | .powerOn => .next s.powerOn
  | .simultaneous _ _ => .refused .simultaneousCommands

/-- R13, R38: the state in which the first event has been taken from the port, with that event. -/
def State.takeEvent (s : State) : Option (HostEvent × State) :=
  match s.port with
  | [] => none
  | ev :: rest => some (ev, { s with port := rest })

/-- The frame presented before every event that waits. -/
def State.present (s : State) (frame : Bytes) : State :=
  { s with port := .command frame :: s.port }

end Sys2Proof.Machine
end

