-- ==== Sys2Proof/Machine/Step.lean ====
section
/-! DEFINITION. One step of the block (R12, R37, R38). -/

namespace Sys2Proof.Machine

/-- R12, R37, R38: the first event the host presents is dealt with whole. With nothing presented the block does nothing,
since no event but a command or power-on reset touches it (R101, R104; assumption 3). -/
def step (s : State) : Host.Outcome State Fault Refusal :=
  match s.takeEvent with
  | none => .next s
  | some (ev, t) => deliver ev t

/-- The word of an opcode-table row as the next frame at the command port, before every event that waits there. -/
def State.withFetchWord (s : State) (nbits w : Nat) : State :=
  s.present (tableFrame nbits w)

end Sys2Proof.Machine
end

