-- ==== Sys2Proof/Machine/Assembler.lean ====
section
/-! DEFINITION. The textual form of commands and its pseudo-instructions (R56, R57): text to command frames. It runs in the
host, before the command port, and touches no state. Where R56 leaves the text open the choice is assumption 17. -/

namespace Sys2Proof.Machine

/-- R56: why a text is not a program. -/
inductive AsmError where
  | badCharacter | badLiteral | badLine | badNumeral | unboundName | literalTooLong
  deriving DecidableEq, Repr

/-- R56: the words, marks and literals of a line, and the end of a line. -/
inductive Token where
  | word (text : String)
  | comma
  | equals
  | literal (bytes : Bytes)
  | newline
  deriving DecidableEq, Repr

/-- Where the reader stands in the text; words and literals are gathered backwards. A hex literal may hold half a byte. -/
inductive LexState where
  | idle
  | word (back : List Char)
  | ascii (back : Bytes)
  | hex (half : Option Nat) (back : Bytes)
  | comment
  deriving DecidableEq, Repr

/-- The value of a digit, decimal or hexadecimal. -/
def digitValue (c : Char) : Option Nat :=
  if '0' ≤ c ∧ c ≤ '9' then some (c.toNat - '0'.toNat)
  else if 'a' ≤ c ∧ c ≤ 'f' then some (c.toNat - 'a'.toNat + 10)
  else if 'A' ≤ c ∧ c ≤ 'F' then some (c.toNat - 'A'.toNat + 10)
  else none

/-- The characters of mnemonics, names, modes and numerals. DESIGN CHOICE (assumption 17): R56 is silent on the characters
of a name that `.bytes` binds; it is any run of these, so letters, digits, `_`, `+` and `.`, also of digits alone. -/
def isWordChar (c : Char) : Bool :=
  ('0' ≤ c ∧ c ≤ '9') ∨ ('a' ≤ c ∧ c ≤ 'z') ∨ ('A' ≤ c ∧ c ≤ 'Z') ∨ c = '_' ∨ c = '+' ∨ c = '.'

/-- A character read between tokens. A newline ends a line and `;` starts a comment (R56). DESIGN CHOICE (assumption 17):
R56 is silent on blanks and on separators. A blank, a tab or a carriage return (a Windows line's end too) ends a word and is
otherwise ignored. Tokens that are distinct without a separator need none (`PARSE"ab"`, `a=1,b=2`); only two words, or
a word before a hex literal, need one. Any other character is an error. -/
def lexIdle (c : Char) : Except AsmError (List Token × LexState) :=
  if c = '\n' then .ok ([.newline], .idle)
  else if c = ' ' ∨ c = '\t' ∨ c = '\r' then .ok ([], .idle)
  else if c = ';' then .ok ([], .comment)
  else if c = ',' then .ok ([.comma], .idle)
  else if c = '=' then .ok ([.equals], .idle)
  else if c = '"' then .ok ([], .ascii [])
  else if isWordChar c then .ok ([], .word [c])
  else .error .badCharacter

/-- A character read inside a hex literal. DESIGN CHOICE (assumption 17): R56 shows `x"hh hh ..."` only; each byte is two
hex digits in either letter case, with any number of blanks (no tabs) before, between and after bytes, also none. -/
def lexHex (half : Option Nat) (back : Bytes) (c : Char) : Except AsmError (List Token × LexState) :=
  match half, digitValue c with
  | none, some d => .ok ([], .hex (some d) back)
  | some h, some d => .ok ([], .hex none (BitVec.ofNat 8 (16 * h + d) :: back))
  | none, none =>
    if c = '"' then .ok ([.literal back.reverse], .idle)
    else if c = ' ' then .ok ([], .hex none back)
    else .error .badLiteral
  | some _, none => .error .badLiteral

/-- R56: one character of the text. DESIGN CHOICE (assumption 17): `x"` opens a hex literal only where `x` is a whole word
(after `PARSEx` the quote opens an ASCII literal). An ASCII literal holds the characters 0x20 to 0x7E but the quote, `;`
among them, with no escapes. A comment runs to the newline and leaves it in place. -/
def lexStep (st : LexState) (c : Char) : Except AsmError (List Token × LexState) :=
  match st with
  | .idle => lexIdle c
  | .word back =>
    if isWordChar c then .ok ([], .word (c :: back))
    else if c = '"' ∧ back = ['x'] then .ok ([], .hex none [])
    else
      match lexIdle c with
      | .ok (ts, st) => .ok (.word (String.ofList back.reverse) :: ts, st)
      | .error e => .error e
  | .ascii back =>
    if c = '"' then .ok ([.literal back.reverse], .idle)
    else if ' ' ≤ c ∧ c ≤ '~' then .ok ([], .ascii (BitVec.ofNat 8 c.toNat :: back))
    else .error .badLiteral
  | .hex half back => lexHex half back c
  | .comment => if c = '\n' then .ok ([.newline], .idle) else .ok ([], .comment)

/-- R56: the tokens of a text. DESIGN CHOICE (assumption 17): the last line needs no newline, and a literal that the text's
end leaves open is an error. -/
def lex : LexState → List Char → Except AsmError (List Token)
  | .word back, [] => .ok [.word (String.ofList back.reverse)]
  | .idle, [] => .ok []
  | .comment, [] => .ok []
  | .ascii _, [] => .error .badLiteral
  | .hex _ _, [] => .error .badLiteral
  | st, c :: cs =>
    match lexStep st c with
    | .error e => .error e
    | .ok (ts, st') => (lex st' cs).map (ts ++ ·)

/-- The tokens of each line. -/
def tokenLines : List Token → List (List Token)
  | [] => [[]]
  | .newline :: ts => [] :: tokenLines ts
  | t :: ts =>
    match tokenLines ts with
    | l :: ls => (t :: l) :: ls
    | [] => [[t]]

/-- The number that digits spell in a base. -/
def digitsValue (base : Nat) (acc : Nat) : List Char → Option Nat
  | [] => some acc
  | c :: cs =>
    match digitValue c with
    | some d => if d < base then digitsValue base (base * acc + d) cs else none
    | none => none

/-- R56: a numeral, decimal or `0x` hex, that fits `w` bits. DESIGN CHOICE (assumption 17): hex digits stand in either letter
case, the `x` of `0x` in lower case only, leading zeros may stand, and a numeral too large for its operand is an error. -/
def numeral (w : Nat) (text : String) : Except AsmError (BitVec w) :=
  let value :=
    match text.toList with
    | [] => none
    | '0' :: 'x' :: [] => none
    | '0' :: 'x' :: c :: cs => digitsValue 16 0 (c :: cs)
    | cs => digitsValue 10 0 cs
  match value with
  | some n => if n < 2 ^ w then .ok (BitVec.ofNat w n) else .error .badNumeral
  | none => .error .badNumeral

/-- R56: a `<mode>`. -/
def modeOperand (text : String) : Except AsmError (BitVec 8) :=
  if text = "NONE" then .ok 0x00
  else if text = "FEC" then .ok 0x01
  else if text = "FEC+DYN" then .ok 0x03
  else numeral 8 text

/-- The names bound by `.bytes` lines so far, the last one first. DESIGN CHOICE (assumption 17): a name bound twice has its
latest binding; any name may be bound, a mnemonic too. -/
abbrev AsmEnv := List (String × Bytes)

/-- R56: a `<bytes>` operand: a literal or a bound name, of at most 65535 bytes. DESIGN CHOICE (assumption 17): an unbound
name is an error, and the limit holds on a `.bytes` line too. -/
def bytesOperand (env : AsmEnv) (t : Token) : Except AsmError Bytes :=
  let value : Except AsmError Bytes :=
    match t with
    | .literal b => .ok b
    | .word name =>
      match env.lookup name with
      | some b => .ok b
      | none => .error .unboundName
    | .comma => .error .badLine
    | .equals => .error .badLine
    | .newline => .error .badLine
  match value with
  | .ok b => if b.length ≤ 65535 then .ok b else .error .literalTooLong
  | .error e => .error e

/-- R56: the values of `name=value` operands in the order of the names. DESIGN CHOICE (assumption 17): R56's form is read
strictly, each operand once and in its order, none left out. -/
def namedOperands : List String → List Token → Option (List String)
  | [], [] => some []
  | [n], [.word n', .equals, .word v] => if n = n' then some [v] else none
  | n :: ns, .word n' :: .equals :: .word v :: .comma :: rest =>
    if n = n' then (namedOperands ns rest).map (v :: ·) else none
  | _, _ => none

/-- R56: CONFIGURE from its seven values. -/
def asmConfigure (args : List Token) : Except AsmError Instr :=
  match namedOperands ["magic", "mode", "min", "pkt", "repair", "sblock", "spkt"] args with
  | some [magic, mode, min, pkt, repair, sblock, spkt] => do
    return .configure (← numeral 32 magic) (← modeOperand mode) (← numeral 32 min) (← numeral 16 pkt) (← numeral 16 repair)
      (← numeral 32 sblock) (← numeral 16 spkt)
  | _ => .error .badLine

/-- R56: STAMP's `plain` or `fec`. -/
def stampFlag (text : String) : Except AsmError Bool :=
  if text = "plain" then .ok false else if text = "fec" then .ok true else .error .badLine

/-- A command with one `<bytes>` operand. -/
def asmBytes (env : AsmEnv) (mk : Bytes → Instr) : List Token → Except AsmError Instr
  | [t] => (bytesOperand env t).map mk
  | _ => .error .badLine

/-- R57: `RX <b1>, <b2>, …`, one RX_PACKET for each operand, in order. DESIGN CHOICE (assumption 17): at least one operand. -/
def asmRx (env : AsmEnv) : List Token → Except AsmError (List Instr)
  | [t] => (bytesOperand env t).map fun b => [.rxPacket b]
  | t :: .comma :: ts => do
    let b ← bytesOperand env t
    let is ← asmRx env ts
    return .rxPacket b :: is
  | _ => .error .badLine

/-- R56, R57: the commands that a mnemonic and its operands stand for. DESIGN CHOICE (assumption 17): mnemonics and keywords
are case-sensitive, and an operand too many is an error. -/
def asmCommand (env : AsmEnv) (op : String) (args : List Token) : Except AsmError (List Instr) :=
  if op = "CONFIGURE" then (asmConfigure args).map ([·])
  else if op = "STAMP" then
    match args with
    | [.word kind, .comma, t] => do
      let fec ← stampFlag kind
      let b ← bytesOperand env t
      return [.stamp fec b]
    | _ => .error .badLine
  else if op = "PARSE" then (asmBytes env .parse args).map ([·])
  else if op = "ENC_PUSH" ∨ op = "SEND" then (asmBytes env .encPush args).map ([·])
  else if op = "SEND_NOW" then (asmBytes env .encPush args).map ([·, .encFlush])
  else if op = "ENC_FLUSH" then if args = [] then .ok [.encFlush] else .error .badLine
  else if op = "DEC_FEED" then (asmBytes env .decFeed args).map ([·])
  else if op = "RX_PACKET" then (asmBytes env .rxPacket args).map ([·])
  else if op = "RX" then asmRx env args
  else if op = "INSPECT" then
    match args with
    | [.word n] => (numeral 8 n).map fun id => [.inspect id]
    | _ => .error .badLine
  else .error .badLine

/-- R56, R57: one line: the names bound after it and the commands it stands for. DESIGN CHOICE (assumption 17): a line with
no token (empty, blank, or a comment alone) stands for no command. -/
def asmLine (env : AsmEnv) (line : List Token) : Except AsmError (AsmEnv × List Instr) :=
  match line with
  | [] => .ok (env, [])
  | .word op :: args =>
    if op = ".bytes" then
      match args with
      | [.word name, .equals, t] => (bytesOperand env t).map fun b => ((name, b) :: env, [])
      | _ => .error .badLine
    else (asmCommand env op args).map fun is => (env, is)
  | _ => .error .badLine

/-- R56: the commands of some lines, in order. -/
def asmLines (env : AsmEnv) : List (List Token) → Except AsmError (List Instr)
  | [] => .ok []
  | l :: ls => do
    let (env', is) ← asmLine env l
    let rest ← asmLines env' ls
    return is ++ rest

/-- R56: the command frames of a program text. DESIGN CHOICE (assumption 17): a text with one bad line is rejected whole. -/
def assemble (text : String) : Except AsmError (List Bytes) := do
  let tokens ← lex .idle text.toList
  let commands ← asmLines [] (tokenLines tokens)
  return commands.map encode

end Sys2Proof.Machine
end

