-- ==== Sys2Proof/Safety.lean ====
section
/-! DEFINITION. What holds of the block between any two commands (R29, R32, R17, R22, R26), and the
illegal frames of R52. -/

namespace Sys2Proof.Safety

open Sys2Proof.Machine

/-- R52, R96, written from the rule and not from the decoder: the frames that are illegal. A frame is empty, or its
opcode is unassigned, or its length is not the one R51 gives for its opcode and length field, or it is a STAMP whose FEC
byte is neither 0x00 nor 0x01. -/
def IllegalFrame (f : Bytes) : Prop :=
  f = [] ∨
  (∃ op rest, f = op :: rest ∧ op ∉ ([0x01, 0x02, 0x03, 0x10, 0x11, 0x20, 0x21, 0x30] : List Byte)) ∨
  (f.head? = some 0x01 ∧ f.length ≠ 20) ∨
  (f.head? = some 0x02 ∧ f.length ≠ 4 + unbe (slice f 2 4)) ∨
  ((f.head? = some 0x03 ∨ f.head? = some 0x10 ∨ f.head? = some 0x20 ∨ f.head? = some 0x21) ∧
    f.length ≠ 3 + unbe (slice f 1 3)) ∨
  (f.head? = some 0x11 ∧ f.length ≠ 1) ∨
  (f.head? = some 0x30 ∧ f.length ≠ 2) ∨
  (f.head? = some 0x02 ∧ f.getD 1 0 ≠ 0x00 ∧ f.getD 1 0 ≠ 0x01)

/-- R17, R21, R22, R90: the configuration registers are what one accepted CONFIGURE leaves. -/
def ConfigOk (params : Params) (cfg : ConfigRegs) : Prop :=
  configValid params cfg.mode cfg.packetSize cfg.staticBlockSize cfg.staticPacketSize = true ∧
  cfg.hdrPlain = wireHeader cfg.magic false ∧ cfg.hdrFec = wireHeader cfg.magic true ∧
  cfg.symT = derivedSymT params cfg.mode cfg.packetSize cfg.staticPacketSize

/-- R25, R29.3, R32: the accumulation buffer: at most 65535 bytes and 254 offsets, the offsets non-decreasing and the last
one the buffer's length; below the threshold with FEC enabled, empty with FEC disabled. -/
def EncoderOk (cfg : ConfigRegs) (enc : Encoder) : Prop :=
  enc.accData.length ≤ 65535 ∧ enc.accOffs.length ≤ 254 ∧
  enc.accOffs.Pairwise (fun a b => a.toNat ≤ b.toNat) ∧
  (enc.accOffs.getLast?.map (·.toNat)).getD 0 = enc.accData.length ∧
  (modeFec cfg.mode = false → enc.accOffs = []) ∧
  (modeFec cfg.mode = true → 1 ≤ cfg.minBlockSize.toNat → enc.accData.length < cfg.minBlockSize.toNat)

/-- R26: a session's parameters and symbols are in range. -/
def SessionOk (params : Params) (e : Session) : Prop :=
  1 ≤ e.F ∧ e.F < 2 ^ 40 ∧ 1 ≤ e.T ∧ e.T ≤ 65535 ∧ e.K = ceilDiv e.F e.T ∧ e.K ≤ params.kMax ∧
  storeWf e.syms ∧ ∀ p ∈ e.syms, p.2.length = e.T ∧ p.1.toNat < params.esiLimit

/-- R29.2: a session holds fewer than K symbols, unless a `CODE.decode` call on it has returned `None`. -/
def SessionUndecoded (params : Params) (draws : Nat) (e : Session) : Prop :=
  e.syms.length < e.K ∨ ∃ n < draws, codeDecode params n e.F e.T e.K e.syms = none

/-- R29.4: every live session and decoded marker lies in the window of one centre. -/
def InOneWindow (dec : Decoder) : Prop :=
  ∃ c, ∀ x, x ∈ storeKeys dec.sess ∨ x ∈ dec.decoded → inWindow x c = true

/-- R26, R27, R29.1, R29.2, R29.4: the decoder's state. -/
def DecoderOk (params : Params) (draws : Nat) (dec : Decoder) : Prop :=
  storeWf dec.sess ∧ idSetWf dec.decoded ∧
  (∀ p ∈ dec.sess, SessionOk params p.2 ∧ SessionUndecoded params draws p.2 ∧ p.1 ∉ dec.decoded) ∧ InOneWindow dec

/-- R29: the invariant of the block between two commands. -/
def BlockInv (s : State) : Prop :=
  s.configured = true →
    ConfigOk s.params s.cfg ∧ EncoderOk s.cfg s.enc ∧ DecoderOk s.params s.draws s.dec

end Sys2Proof.Safety
end

