-- ==== Sys2Proof/Certificates/Slice0/Obligations.lean ====
section
/-! DEFINITION. What is claimed of the block, rule by rule of the spec. Each statement's docstring names the rules it
formalises. A next state is written as an update of the state before, which is the frame: nothing else changes. -/

open Sys2Proof Sys2Proof.Machine Sys2Proof.Safety

/-! ### Frames and commands (30_encoding.md) -/

/-- R50, R51: the decoder reads back every well-formed command from its frame, operands included. -/
def Obligations.DecodeInvertsEncode : Prop :=
  ∀ i : Instr, i.wellFormed = true → decode (encode i) = .ok i

/-- R50, R51: every frame the decoder accepts is the frame of the command it answers, so no bit of a frame is ignored. -/
def Obligations.EncodeInvertsDecode : Prop :=
  ∀ (f : Bytes) (i : Instr), decode f = .ok i → i.wellFormed = true ∧ encode i = f

/-- R50, R51: a frame begins with its opcode byte, ends with its variable-length operand, and has the table's length. -/
def Obligations.FrameLayout : Prop :=
  ∀ i : Instr, (encode i).head? = some i.opcode.code ∧ (encode i).length = i.frameLength ∧
    (encode i).drop (i.frameLength - i.body.length) = i.body

/-- R51, R90: frames written out by hand from the layouts of R51 decode to the commands they stand for. -/
def Obligations.SampleFramesDecode : Prop :=
  decode [0x01, 0x57, 0x46, 0x42, 0x31, 0x03, 0x00, 0x00, 0x00, 0x0A, 0x00, 0x08, 0x00, 0x02,
    0x00, 0x00, 0x00, 0x00, 0x00, 0x00] = .ok (.configure 0x57464231 0x03 10 8 2 0 0) ∧
  decode [0x02, 0x01, 0x00, 0x02, 0x61, 0x62] = .ok (.stamp true [0x61, 0x62]) ∧
  decode [0x03, 0x00, 0x01, 0xAA] = .ok (.parse [0xAA]) ∧
  decode [0x10, 0x00, 0x01, 0x61] = .ok (.encPush [0x61]) ∧
  decode [0x11] = .ok .encFlush ∧
  decode [0x20, 0x00, 0x01, 0x62] = .ok (.decFeed [0x62]) ∧
  decode [0x21, 0x00, 0x00] = .ok (.rxPacket []) ∧
  decode [0x30, 0xFA] = .ok (.inspect 250)

/-- R52: an illegal frame finishes with ERR_ILLEGAL, changes nothing and emits nothing; every other frame runs a command.
A frame with reserved MODE bits is legal and CONFIGURE rejects it. -/
def Obligations.IllegalFramesHaveNoEffect : Prop :=
  ∀ (s : State) (f : Bytes) (rest : List HostEvent), s.port = .command f :: rest →
    (IllegalFrame f → step s = .next { s with port := rest, response := some ⟨.errIllegal, 0, []⟩ }) ∧
    (¬ IllegalFrame f → ∃ i, decode f = .ok i ∧ i.wellFormed = true ∧ step s = exec i { s with port := rest }) ∧
    ((f.head? = some 0x01 ∧ f.length = 20 ∧ 4 ≤ (f.getD 5 0).toNat) →
      ∃ t, step s = .next t ∧ t.configured = false ∧ t.response = some ⟨.cfgInvalid, 0, []⟩)

/-- R53: the response frame determines the response: STATUS, AUX and the items (each shorter than 2^32 bytes, and fewer
than 2^32 of them). -/
def Obligations.ResponseFrameUnambiguous : Prop :=
  ∀ r r' : Response, r.items.length < 2 ^ 32 → r'.items.length < 2 ^ 32 →
    (∀ x ∈ r.items, x.length < 2 ^ 32) → (∀ x ∈ r'.items, x.length < 2 ^ 32) →
    r.frame = r'.frame → r = r'

/-- R53, R94: the code of every status, and the layout of a response frame, on the DECODED response of program P2 and on
an empty OK. -/
def Obligations.ResponseFrameLayout : Prop :=
  [Status.ok, .needMore, .decoded, .decodedBaddir, .dropForeign, .dropShort, .dropBadhdr, .dropDup, .dropBadparam,
    .dropSymlen, .dropBadsym, .dropNofec, .encOversize, .cfgInvalid, .errUnconfigured, .errIllegal].map Status.code =
  [0x00, 0x01, 0x02, 0x03, 0x10, 0x11, 0x12, 0x13, 0x14, 0x15, 0x16, 0x17, 0x20, 0x30, 0x31, 0x32] ∧
  (Response.mk .decoded 0 [[0x48, 0x45, 0x4C, 0x4C, 0x4F], [0x57, 0x4F, 0x52, 0x4C, 0x44]]).frame =
    [0x02, 0x00, 0x00, 0x00, 0x00, 0x02, 0x00, 0x00, 0x00, 0x05, 0x48, 0x45, 0x4C, 0x4C, 0x4F,
      0x00, 0x00, 0x00, 0x05, 0x57, 0x4F, 0x52, 0x4C, 0x44] ∧
  (Response.mk .ok 0 []).frame = [0x00, 0x00, 0x00, 0x00, 0x00, 0x00]

/-- R56, R57: every frame that the assembler makes of a text is the frame of a command; SEND, SEND_NOW, RX and `.bytes`
expand as R57 says. -/
def Obligations.AssembledFramesAreLegal : Prop :=
  (∀ (text : String) (frames : List Bytes), assemble text = .ok frames →
    ∀ f ∈ frames, ∃ i : Instr, i.wellFormed = true ∧ encode i = f ∧ decode f = .ok i) ∧
  (∀ (env : AsmEnv) (t : Token) (b : Bytes), bytesOperand env t = .ok b →
    asmCommand env "ENC_PUSH" [t] = .ok [.encPush b] ∧ asmCommand env "SEND" [t] = .ok [.encPush b] ∧
    asmCommand env "SEND_NOW" [t] = .ok [.encPush b, .encFlush] ∧ asmCommand env "RX" [t] = .ok [.rxPacket b] ∧
    (∀ ts is, asmCommand env "RX" ts = .ok is →
      asmCommand env "RX" (t :: .comma :: ts) = .ok (.rxPacket b :: is)) ∧
    ∀ name, asmLine env [.word ".bytes", .word name, .equals, t] = .ok ((name, b) :: env, []))

/-! ### Steps, reset and totality (00, 10, 20, 60, 70) -/

/-- R12, R38: when the next frame decodes to a command, the step is that command's meaning, run in the state from whose
port the frame has been taken. -/
def Obligations.StepRunsDecodedCommand : Prop :=
  ∀ (s : State) (f : Bytes) (rest : List HostEvent) (i : Instr), s.port = .command f :: rest → decode f = .ok i →
    step s = exec i { s with port := rest }

/-- R39, R106: power-on reset sets CONFIGURED to 0, and two commands at once have no step. The model's choices here are that
power-on leaves no response (assumption 9), that two commands at once end in a refusal of its own name (assumption 10), and
that with nothing presented the block does nothing (assumption 3). -/
def Obligations.StepOfOtherEvents : Prop :=
  (∀ (s : State) (rest : List HostEvent), s.port = .powerOn :: rest →
    ∃ t, step s = .next t ∧ t.configured = false ∧ t.response = none ∧ t.port = rest ∧ t.params = s.params) ∧
  (∀ (s : State) (a b : Bytes) (rest : List HostEvent), s.port = .simultaneous a b :: rest →
    step s = .refused .simultaneousCommands) ∧
  (∀ s : State, s.port = [] → step s = .next s)

/-- R53, R95, R97: every command, in every state, completes with exactly one response. -/
def Obligations.EveryCommandAnswers : Prop :=
  ∀ (i : Instr) (s : State), ∃ t r, exec i s = .next t ∧ t.response = some r ∧ t.port = s.port ∧ t.params = s.params

/-- R39, R95: no step faults, and only two commands at once are refused (assumption 10). That there is a next state also
with nothing presented is the model's choice (assumption 3). -/
def Obligations.StepNeverStops : Prop :=
  ∀ s : State, (∃ t, step s = .next t) ∨ ∃ a b rest, s.port = .simultaneous a b :: rest

/-- R94: the statuses each command can give. -/
def Obligations.StatusesOfEachCommand : Prop :=
  ∀ (i : Instr) (s t : State) (r : Response), exec i s = .next t → t.response = some r →
    (i.opcode ≠ .configure ∧ s.configured = false ∧ r.status = .errUnconfigured) ∨
    (match i with
      | .configure _ _ _ _ _ _ _ => r.status ∈ [Status.ok, .cfgInvalid]
      | .stamp _ _ => r.status = .ok
      | .inspect _ => r.status = .ok
      | .parse _ => r.status ∈ [Status.ok, .dropForeign, .dropShort, .dropBadhdr]
      | .encPush _ => r.status ∈ [Status.ok, .encOversize]
      | .encFlush => r.status ∈ [Status.ok, .encOversize]
      | .decFeed _ => r.status ∈ [Status.needMore, .decoded, .decodedBaddir, .dropShort, .dropDup, .dropBadparam,
          .dropSymlen, .dropBadsym, .dropNofec]
      | .rxPacket _ => r.status ∈ [Status.ok, .needMore, .decoded, .decodedBaddir, .dropForeign, .dropShort,
          .dropBadhdr, .dropDup, .dropBadparam, .dropSymlen, .dropBadsym, .dropNofec])

/-- R71, R94, R97: a drop changes no state but the response, and emits no item. -/
def Obligations.DropsChangeNothing : Prop :=
  ∀ (i : Instr) (s t : State) (r : Response), exec i s = .next t → t.response = some r → r.status.isDrop = true →
    r.items = [] ∧ t = { s with response := some r }

/-- R15, R30, R106: with CONFIGURED = 0, as it is after power-on reset, every command but CONFIGURE finishes with
ERR_UNCONFIGURED and changes nothing. -/
def Obligations.UnconfiguredRefusesCommands : Prop :=
  State.reset.configured = false ∧
  ∀ (i : Instr) (s : State), s.configured = false → i.opcode ≠ .configure →
    exec i s = .next { s with response := some ⟨.errUnconfigured, 0, []⟩ }

/-- R30: while CONFIGURED is 0 no command reads the registers, the encoder's or the decoder's state: whatever they hold,
the response and CONFIGURED after the command are the same, and after an accepted CONFIGURE so is the whole state. -/
def Obligations.UnspecifiedStateIsNeverRead : Prop :=
  ∀ (i : Instr) (s : State) (cfg : ConfigRegs) (enc : Encoder) (dec : Decoder), s.configured = false →
    ∃ t u, exec i s = .next t ∧ exec i { s with cfg := cfg, enc := enc, dec := dec } = .next u ∧
      u.response = t.response ∧ u.configured = t.configured ∧ (t.configured = true → u = t)

/-- R29: the invariant holds after power-on reset. -/
def Obligations.InvariantAtReset : Prop :=
  BlockInv State.reset

/-- R29, R17, R22, R26, R32: every step from a state that meets the invariant leads to one that does. -/
def Obligations.StepKeepsInvariant : Prop :=
  ∀ s t : State, BlockInv s → step s = .next t → BlockInv t

/-- R32, R89: between commands the cache holds at most 127 block states, and an accumulation buffer at most 65535 bytes
and 254 datagrams. -/
def Obligations.StorageBounds : Prop :=
  ∀ s : State, BlockInv s → s.configured = true →
    s.dec.sess.length + s.dec.decoded.length ≤ 127 ∧ s.enc.accData.length ≤ 65535 ∧ s.enc.accOffs.length ≤ 254

/-! ### Control commands (44_control.md) -/

/-- R90, R22, R107: CONFIGURE accepts exactly the valid configurations, loads every register, and starts the encoder and
the decoder afresh. (`ceil(STATIC_BLOCK_SIZE / STATIC_PACKET_SIZE) ≤ K_MAX` is written as a product.) -/
def Obligations.ConfigureAccepts : Prop :=
  ∀ (s : State) (magic : BitVec 32) (mode : BitVec 8) (minb : BitVec 32) (pkt rep : BitVec 16) (sblk : BitVec 32)
    (spkt : BitVec 16),
    mode.toNat < 4 →
    (mode.getLsbD 0 = true → mode.getLsbD 1 = true → s.params.symbolOverhead < pkt.toNat) →
    (mode.getLsbD 0 = true → mode.getLsbD 1 = false →
      1 ≤ sblk.toNat ∧ 1 ≤ spkt.toNat ∧ sblk.toNat ≤ s.params.kMax * spkt.toNat) →
    exec (.configure magic mode minb pkt rep sblk spkt) s = .next { s with
      configured := true
      cfg :=
        { magic := magic, mode := mode, minBlockSize := minb, packetSize := pkt, repairCount := rep,
          staticBlockSize := sblk, staticPacketSize := spkt,
          hdrPlain := { magic := magic, flag := 0x00 }, hdrFec := { magic := magic, flag := 0x01 },
          symT := if mode.getLsbD 0 then
              (if mode.getLsbD 1 then BitVec.ofNat 16 (pkt.toNat - s.params.symbolOverhead) else spkt)
            else 0 }
      enc := { id := 0, accData := [], accOffs := [] }
      dec := { sess := [], decoded := [] }
      response := some ⟨.ok, 0, []⟩ }

/-- R90, R15: CONFIGURE rejects every other configuration with CFG_INVALID and leaves CONFIGURED = 0. -/
def Obligations.ConfigureRejects : Prop :=
  ∀ (s : State) (magic : BitVec 32) (mode : BitVec 8) (minb : BitVec 32) (pkt rep : BitVec 16) (sblk : BitVec 32)
    (spkt : BitVec 16),
    (4 ≤ mode.toNat ∨
      (mode.getLsbD 0 = true ∧ mode.getLsbD 1 = true ∧ pkt.toNat ≤ s.params.symbolOverhead) ∨
      (mode.getLsbD 0 = true ∧ mode.getLsbD 1 = false ∧
        (sblk.toNat = 0 ∨ spkt.toNat = 0 ∨ s.params.kMax * spkt.toNat < sblk.toNat))) →
    ∃ t, exec (.configure magic mode minb pkt rep sblk spkt) s = .next t ∧ t.configured = false ∧
      t.response = some ⟨.cfgInvalid, 0, []⟩ ∧ t.params = s.params ∧ t.port = s.port

/-- R23, R15: no command but CONFIGURE writes CONFIGURED or a configuration register. -/
def Obligations.OnlyConfigureWritesConfiguration : Prop :=
  ∀ (i : Instr) (s t : State), i.opcode ≠ .configure → exec i s = .next t →
    t.configured = s.configured ∧ t.cfg = s.cfg

/-- R91: INSPECT answers the 14-byte summary and changes nothing. -/
def Obligations.InspectSummary : Prop :=
  ∀ (id : BlockId) (s : State), s.configured = true →
    (∀ e, storeGet id s.dec.sess = some e →
      exec (.inspect id) s = .next { s with response := some ⟨.ok, 0x01 ||| (if id ∈ s.dec.decoded then 0x02 else 0x00),
        [[s.enc.id] ++ be 1 s.enc.accOffs.length ++ be 2 s.enc.accData.length ++ be 1 s.dec.sess.length ++
          be 1 s.dec.decoded.length ++ be 4 e.syms.length ++ be 4 e.K]⟩ }) ∧
    (storeGet id s.dec.sess = none →
      exec (.inspect id) s = .next { s with response := some ⟨.ok, (if id ∈ s.dec.decoded then 0x02 else 0x00),
        [[s.enc.id] ++ be 1 s.enc.accOffs.length ++ be 2 s.enc.accData.length ++ be 1 s.dec.sess.length ++
          be 1 s.dec.decoded.length ++ be 4 0 ++ be 4 0]⟩ })

/-- R91, R29: between commands INSPECT never answers AUX = 0x03, its item has 14 bytes, and its two counts are exact. -/
def Obligations.InspectIsExact : Prop :=
  ∀ (id : BlockId) (s : State), s.configured = true → BlockInv s →
    ∃ aux item, exec (.inspect id) s = .next { s with response := some ⟨.ok, aux, [item]⟩ } ∧ aux ≠ 0x03 ∧
      item.length = 14 ∧ unbe (slice item 4 5) = s.dec.sess.length ∧ unbe (slice item 5 6) = s.dec.decoded.length

/-! ### Wire framing (40_framing.md) -/

/-- R58, R42: STAMP puts the chosen prebuilt header before the payload, whatever FEC_EN is; the header's five bytes are
the magic, big-endian, and the flag. -/
def Obligations.StampPrependsHeader : Prop :=
  ∀ (fec : Bool) (p : Bytes) (s : State), s.configured = true →
    exec (.stamp fec p) s = .next { s with
      response := some ⟨.ok, 0, [(if fec then s.cfg.hdrFec.bytes else s.cfg.hdrPlain.bytes) ++ p]⟩ } ∧
    (BlockInv s → (if fec then s.cfg.hdrFec.bytes else s.cfg.hdrPlain.bytes) =
      be 4 s.cfg.magic.toNat ++ [if fec then 0x01 else 0x00])

/-- R59: PARSE's checks in order, and its answer. -/
def Obligations.ParseOutcomes : Prop :=
  ∀ (b : Bytes) (s : State), s.configured = true →
    (b.length < 5 → exec (.parse b) s = .next { s with response := some ⟨.dropShort, 0, []⟩ }) ∧
    (5 ≤ b.length → unbe (slice b 0 4) ≠ s.cfg.magic.toNat →
      exec (.parse b) s = .next { s with response := some ⟨.dropForeign, 0, []⟩ }) ∧
    (5 ≤ b.length → unbe (slice b 0 4) = s.cfg.magic.toNat → b.getD 4 0 ≠ 0x00 → b.getD 4 0 ≠ 0x01 →
      exec (.parse b) s = .next { s with response := some ⟨.dropBadhdr, 0, []⟩ }) ∧
    (5 ≤ b.length → unbe (slice b 0 4) = s.cfg.magic.toNat → (b.getD 4 0 = 0x00 ∨ b.getD 4 0 = 0x01) →
      exec (.parse b) s = .next { s with response := some ⟨.ok, b.getD 4 0, [b.drop 5]⟩ })

/-- R60: RX_PACKET drops as PARSE does, delivers a plain packet, drops a FEC packet with FEC disabled, and else is
DEC_FEED of the remainder. -/
def Obligations.RxPacketOutcomes : Prop :=
  ∀ (b : Bytes) (s : State), s.configured = true →
    (b.length < 5 → exec (.rxPacket b) s = .next { s with response := some ⟨.dropShort, 0, []⟩ }) ∧
    (5 ≤ b.length → unbe (slice b 0 4) ≠ s.cfg.magic.toNat →
      exec (.rxPacket b) s = .next { s with response := some ⟨.dropForeign, 0, []⟩ }) ∧
    (5 ≤ b.length → unbe (slice b 0 4) = s.cfg.magic.toNat → b.getD 4 0 ≠ 0x00 → b.getD 4 0 ≠ 0x01 →
      exec (.rxPacket b) s = .next { s with response := some ⟨.dropBadhdr, 0, []⟩ }) ∧
    (5 ≤ b.length → unbe (slice b 0 4) = s.cfg.magic.toNat → b.getD 4 0 = 0x00 →
      exec (.rxPacket b) s = .next { s with response := some ⟨.ok, 0, [b.drop 5]⟩ }) ∧
    (5 ≤ b.length → unbe (slice b 0 4) = s.cfg.magic.toNat → b.getD 4 0 = 0x01 → s.cfg.mode.getLsbD 0 = false →
      exec (.rxPacket b) s = .next { s with response := some ⟨.dropNofec, 0, []⟩ }) ∧
    (5 ≤ b.length → unbe (slice b 0 4) = s.cfg.magic.toNat → b.getD 4 0 = 0x01 → s.cfg.mode.getLsbD 0 = true →
      exec (.rxPacket b) s = exec (.decFeed (b.drop 5)) s)

/-- R61: framing round trip. -/
def Obligations.FramingRoundTrip : Prop :=
  ∀ (f : Bool) (p : Bytes) (s : State), BlockInv s → s.configured = true → p.length ≤ 65535 →
    ∃ t x, exec (.stamp f p) s = .next t ∧ t.response = some ⟨.ok, 0, [x]⟩ ∧
      exec (.parse x) t = .next { t with response := some ⟨.ok, if f then 0x01 else 0x00, [p]⟩ }

/-- R62: magic filtering. -/
def Obligations.MagicFiltering : Prop :=
  ∀ (b : Bytes) (s : State), s.configured = true →
    (5 ≤ b.length → unbe (slice b 0 4) ≠ s.cfg.magic.toNat →
      exec (.parse b) s = .next { s with response := some ⟨.dropForeign, 0, []⟩ } ∧
      exec (.rxPacket b) s = .next { s with response := some ⟨.dropForeign, 0, []⟩ }) ∧
    (b.length < 5 →
      exec (.parse b) s = .next { s with response := some ⟨.dropShort, 0, []⟩ } ∧
      exec (.rxPacket b) s = .next { s with response := some ⟨.dropShort, 0, []⟩ })

/-- R36: STAMP, PARSE and INSPECT change no state but the response. -/
def Obligations.ReadersChangeNothing : Prop :=
  ∀ (i : Instr) (s t : State), i.opcode ∈ [Opcode.stamp, .parse, .inspect] → exec i s = .next t →
    t = { s with response := t.response }

/-! ### Block encoder (41_encoder.md) -/

/-- R66: with FEC disabled ENC_PUSH sends the datagram as one plain packet and touches no state. -/
def Obligations.PushWithFecDisabled : Prop :=
  ∀ (d : Bytes) (s : State), s.configured = true → s.cfg.mode.getLsbD 0 = false →
    exec (.encPush d) s = .next { s with response := some ⟨.ok, 0, [s.cfg.hdrPlain.bytes ++ d]⟩ }

/-- R67: ENC_PUSH with FEC enabled: the pre-build where the datagram would push an offset past 16 bits, the datagram
appended, the build at the threshold or at 255 datagrams; AUX counts the blocks built, and the status is ENC_OVERSIZE if
either build dropped its block. R68: each build is what ENC_FLUSH answers in the state with that encoder, so that the packets
of `FlushBuildsDynamicBlock`, `FlushBuildsStaticBlock` and `FlushDropsOversizeBlock` are those of ENC_PUSH too. -/
def Obligations.PushSequence : Prop :=
  ∀ (d : Bytes) (s : State), s.configured = true → s.cfg.mode.getLsbD 0 = true → d.length ≤ 65535 →
    (∀ enc : Encoder,
      let b := buildBlock s.cfg s.params enc
      exec .encFlush { s with enc := enc } = .next { s with
        enc := b.enc
        response := some ⟨if b.result = .oversize then .encOversize else .ok, if b.result = .built then 1 else 0,
          b.packets⟩ }) ∧
    ∃ b1 b2 : Build,
      b1 = (if 65535 < s.enc.accData.length + d.length then buildBlock s.cfg s.params s.enc else ⟨.empty, [], s.enc⟩) ∧
      b2 = (let enc : Encoder :=
              ⟨b1.enc.id, b1.enc.accData ++ d, b1.enc.accOffs ++ [BitVec.ofNat 16 (b1.enc.accData.length + d.length)]⟩
            if s.cfg.minBlockSize.toNat ≤ enc.accData.length ∨ enc.accOffs.length = 255 then
              buildBlock s.cfg s.params enc
            else ⟨.empty, [], enc⟩) ∧
      exec (.encPush d) s = .next { s with
        enc := b2.enc
        response := some ⟨if b1.result = .oversize ∨ b2.result = .oversize then .encOversize else .ok,
          BitVec.ofNat 8 ((if b1.result = .built then 1 else 0) + (if b2.result = .built then 1 else 0)),
          b1.packets ++ b2.packets⟩ }

/-- R63, R64, R65, R68, R45 to R49: ENC_FLUSH in Dynamic mode builds the buffered block: the k source symbols and then
the r repair symbols, each behind the FEC wire header, the Dynamic FEC header, the block id and the ESI; ENC_ID
advances and the buffer is cleared. -/
def Obligations.FlushBuildsDynamicBlock : Prop :=
  ∀ (s : State) (B : Bytes) (T k r : Nat), s.configured = true → s.cfg.mode.getLsbD 0 = true →
    s.cfg.mode.getLsbD 1 = true → s.enc.accOffs ≠ [] →
    B = s.enc.accData ++ s.enc.accOffs.flatMap (fun o => be 2 o.toNat) ++ [BitVec.ofNat 8 s.enc.accOffs.length] →
    T = s.cfg.symT.toNat → r = s.cfg.repairCount.toNat → 1 ≤ T → (k - 1) * T < B.length → B.length ≤ k * T →
    k ≤ s.params.kMax → k + r ≤ s.params.esiLimit →
    exec .encFlush s = .next { s with
      enc := { id := s.enc.id + 1, accData := [], accOffs := [] }
      response := some ⟨.ok, 1, (List.range (k + r)).map fun e =>
        s.cfg.hdrFec.bytes ++ be 5 B.length ++ [0x00] ++ be 2 T ++ [0x01, 0x00, 0x01, 0x01] ++ [s.enc.id] ++ be 3 e ++
          (if e < k then slice (B ++ zeros (k * T - B.length)) (e * T) ((e + 1) * T)
            else codeSym s.params (B ++ zeros (k * T - B.length)) T k e)⟩ }

/-- R49, R63, R64, R65, R68: ENC_FLUSH in Static mode: zero padding between the data and the directory up to
STATIC_BLOCK_SIZE, and no Dynamic FEC header. -/
def Obligations.FlushBuildsStaticBlock : Prop :=
  ∀ (s : State) (B : Bytes) (T k r n : Nat), s.configured = true → s.cfg.mode.getLsbD 0 = true →
    s.cfg.mode.getLsbD 1 = false → s.enc.accOffs ≠ [] →
    s.enc.accData.length + n + (2 * s.enc.accOffs.length + 1) = s.cfg.staticBlockSize.toNat →
    B = s.enc.accData ++ zeros n ++ s.enc.accOffs.flatMap (fun o => be 2 o.toNat) ++
      [BitVec.ofNat 8 s.enc.accOffs.length] →
    T = s.cfg.symT.toNat → r = s.cfg.repairCount.toNat → 1 ≤ T → (k - 1) * T < B.length → B.length ≤ k * T →
    k ≤ s.params.kMax → k + r ≤ s.params.esiLimit →
    exec .encFlush s = .next { s with
      enc := { id := s.enc.id + 1, accData := [], accOffs := [] }
      response := some ⟨.ok, 1, (List.range (k + r)).map fun e =>
        s.cfg.hdrFec.bytes ++ [s.enc.id] ++ be 3 e ++
          (if e < k then slice (B ++ zeros (k * T - B.length)) (e * T) ((e + 1) * T)
            else codeSym s.params (B ++ zeros (k * T - B.length)) T k e)⟩ }

/-- R65, R68: a block that cannot be encoded (a Static block that does not fit, more than K_MAX source symbols, an ESI at
ESI_LIMIT or above) is dropped with ENC_OVERSIZE: the buffer is cleared, nothing is emitted, ENC_ID stays. -/
def Obligations.FlushDropsOversizeBlock : Prop :=
  ∀ (s : State) (F k : Nat), s.configured = true → s.cfg.mode.getLsbD 0 = true → s.enc.accOffs ≠ [] →
    1 ≤ s.cfg.symT.toNat →
    F = (if s.cfg.mode.getLsbD 1 then s.enc.accData.length + 2 * s.enc.accOffs.length + 1
      else s.cfg.staticBlockSize.toNat) →
    (k - 1) * s.cfg.symT.toNat < F → F ≤ k * s.cfg.symT.toNat →
    ((s.cfg.mode.getLsbD 1 = false ∧ F < s.enc.accData.length + 2 * s.enc.accOffs.length + 1) ∨
      s.params.kMax < k ∨ s.params.esiLimit < k + s.cfg.repairCount.toNat) →
    exec .encFlush s = .next { s with
      enc := { id := s.enc.id, accData := [], accOffs := [] }
      response := some ⟨.encOversize, 0, []⟩ }

/-- R68: ENC_FLUSH with nothing buffered, or with FEC disabled, emits nothing and changes nothing. -/
def Obligations.FlushOfNothing : Prop :=
  ∀ s : State, s.configured = true → (s.cfg.mode.getLsbD 0 = false ∨ s.enc.accOffs = []) →
    exec .encFlush s = .next { s with response := some ⟨.ok, 0, []⟩ }

/-- R24, R69 law 2: ENC_ID advances by one, modulo 256, for each block built and for nothing else. -/
def Obligations.EncIdCountsBuiltBlocks : Prop :=
  ∀ (i : Instr) (s t : State) (r : Response), i.opcode ∈ [Opcode.encPush, .encFlush] → exec i s = .next t →
    t.response = some r → t.enc.id = s.enc.id + r.aux

/-- R65, R45, R69 law 1: with FEC enabled every packet that ENC_PUSH or ENC_FLUSH emits has the same length, `5 + h + 4 + T`
with h = 12 in Dynamic mode and 0 in Static mode. -/
def Obligations.PacketsHaveOneLength : Prop :=
  ∀ (i : Instr) (s t : State) (r : Response), BlockInv s → s.configured = true → s.cfg.mode.getLsbD 0 = true →
    i.opcode ∈ [Opcode.encPush, .encFlush] → exec i s = .next t → t.response = some r →
    ∀ x ∈ r.items, x.length = 5 + (if s.cfg.mode.getLsbD 1 then 12 else 0) + 4 + s.cfg.symT.toNat

/-- R3, R36: ENC_PUSH and ENC_FLUSH write the encoder's state and the response alone. -/
def Obligations.EncoderCommandsFrame : Prop :=
  ∀ (i : Instr) (s t : State), i.opcode ∈ [Opcode.encPush, .encFlush] → exec i s = .next t →
    t = { s with enc := t.enc, response := t.response }

/-- R3: the encoder's commands do not read the decoder's state: with another decoder state they do the same. -/
def Obligations.EncoderIgnoresDecoder : Prop :=
  ∀ (i : Instr) (s : State) (dec : Decoder) (n : Nat), i.opcode ∈ [Opcode.encPush, .encFlush] →
    ∃ t, exec i s = .next t ∧ exec i { s with dec := dec, draws := n } = .next { t with dec := dec, draws := n }

/-! ### Block decoder (42_decoder.md) -/

/-- R70, within the ranges it gives: the erasure code is systematic and its symbols have T bytes; any k of a block's symbols
decode to the block, wherever law 2 can be met on the symbols concerned (`LawTwoPossible`, assumption 5), and so does any
map that belongs to that block only; what a decode answers has F bytes. -/
def Obligations.CodeLaws : Prop :=
  ∀ (params : Params) (T k : Nat), 1 ≤ T → T ≤ 65535 → 1 ≤ k → k ≤ params.kMax →
    (∀ (P : Bytes) (e : Nat), P.length = k * T → e < params.esiLimit →
      (codeSym params P T k e).length = T ∧ (e < k → codeSym params P T k e = slice P (e * T) ((e + 1) * T))) ∧
    (∀ (n F : Nat) (M : Store 24 Bytes) (P : Bytes), (k - 1) * T < F → F ≤ k * T → P.length = k * T → storeWf M →
      k ≤ M.length → (∀ p ∈ M, p.1.toNat < params.esiLimit ∧ p.2 = codeSym params P T k p.1.toNat) →
      ((∃ m, m ≤ params.esiLimit ∧ LawTwoPossible T k m ∧ ∀ p ∈ M, p.1.toNat < m) ∨
        (∀ Q, Q.length = k * T → (∀ p ∈ M, p.2 = codeSym params Q T k p.1.toNat) → Q.take F = P.take F)) →
      codeDecode params n F T k M = some (P.take F)) ∧
    (∀ (n F : Nat) (M : Store 24 Bytes) (x : Bytes), (k - 1) * T < F → F ≤ k * T → k ≤ M.length →
      (∀ p ∈ M, p.1.toNat < params.esiLimit ∧ p.2.length = T) → codeDecode params n F T k M = some x → x.length = F)

/-- R45, R46, R47, R72: the fields of a coded remainder, byte by byte, in both modes. -/
def Obligations.CodedRemainderLayout : Prop :=
  (∀ (cfg : ConfigRegs) (F T e : Nat) (res Z N1 N2 Al id : Byte) (sym : Bytes), cfg.mode.getLsbD 1 = true →
    F < 2 ^ 40 → T < 2 ^ 16 → e < 2 ^ 24 →
    codedFields cfg (be 5 F ++ [res] ++ be 2 T ++ [Z, N1, N2, Al] ++ [id] ++ be 3 e ++ sym) =
      some ⟨F, T, id, BitVec.ofNat 24 e, sym⟩) ∧
  (∀ (cfg : ConfigRegs) (e : Nat) (id : Byte) (sym : Bytes), cfg.mode.getLsbD 1 = false → e < 2 ^ 24 →
    codedFields cfg ([id] ++ be 3 e ++ sym) =
      some ⟨cfg.staticBlockSize.toNat, cfg.staticPacketSize.toNat, id, BitVec.ofNat 24 e, sym⟩) ∧
  (∀ (cfg : ConfigRegs) (C : Bytes), C.length < (if cfg.mode.getLsbD 1 then 16 else 4) ↔ codedFields cfg C = none)

/-- R71, R72, R74, R96: DEC_FEED's first drops, in the order of the checks; each changes nothing but the response. (DROP_DUP
stands between the last two: `DecodedBlocksAreDeduplicated`; DROP_BADSYM and DROP_SYMLEN follow: the next two.) -/
def Obligations.FeedDropsInOrder : Prop :=
  ∀ (C : Bytes) (s : State), s.configured = true →
    (s.cfg.mode.getLsbD 0 = false →
      exec (.decFeed C) s = .next { s with response := some ⟨.dropNofec, 0, []⟩ }) ∧
    (s.cfg.mode.getLsbD 0 = true → codedFields s.cfg C = none →
      exec (.decFeed C) s = .next { s with response := some ⟨.dropShort, 0, []⟩ }) ∧
    (∀ c, s.cfg.mode.getLsbD 0 = true → codedFields s.cfg C = some c → c.id ∉ s.dec.decoded →
      storeGet c.id s.dec.sess = none → (c.T = 0 ∨ c.F = 0 ∨ s.params.kMax * c.T < c.F) →
      exec (.decFeed C) s = .next { s with response := some ⟨.dropBadparam, c.id, []⟩ })

/-- R73: a packet of a decoded block is DROP_DUP, whatever else is wrong with it: no state change, no item, no sweep. -/
def Obligations.DecodedBlocksAreDeduplicated : Prop :=
  ∀ (C : Bytes) (s : State) (c : Coded), s.configured = true → s.cfg.mode.getLsbD 0 = true →
    codedFields s.cfg C = some c → c.id ∈ s.dec.decoded →
    exec (.decFeed C) s = .next { s with response := some ⟨.dropDup, c.id, []⟩ }

/-- R75: a symbol identifier at ESI_LIMIT or above is dropped with DROP_BADSYM; with the reference limit that never
happens. -/
def Obligations.EsiOutOfRangeIsDropped : Prop :=
  (∀ (C : Bytes) (s : State) (c : Coded) (e : Session), s.configured = true → s.cfg.mode.getLsbD 0 = true →
    codedFields s.cfg C = some c → c.id ∉ s.dec.decoded → sessionFor s.params s.dec c = some e →
    s.params.esiLimit ≤ c.esi.toNat →
    exec (.decFeed C) s = .next { s with response := some ⟨.dropBadsym, c.id, []⟩ }) ∧
  (∀ (C : Bytes) (s t : State) (r : Response), s.params.esiLimit = 2 ^ 24 → exec (.decFeed C) s = .next t →
    t.response = some r → r.status ≠ .dropBadsym)

/-- R76: a symbol whose length is not the session's T is dropped with DROP_SYMLEN, and no session is created from it. -/
def Obligations.WrongSymbolLengthIsDropped : Prop :=
  ∀ (C : Bytes) (s : State) (c : Coded) (e : Session), s.configured = true → s.cfg.mode.getLsbD 0 = true →
    codedFields s.cfg C = some c → c.id ∉ s.dec.decoded → sessionFor s.params s.dec c = some e →
    c.esi.toNat < s.params.esiLimit → c.sym.length ≠ e.T →
    exec (.decFeed C) s = .next { s with response := some ⟨.dropSymlen, c.id, []⟩ }

/-- R74: the session a packet belongs to: the live one with its own F and T, or a fresh one with `K = ceil(F / T)`. -/
def Obligations.SessionParameters : Prop :=
  ∀ (params : Params) (dec : Decoder) (c : Coded),
    (∀ e, storeGet c.id dec.sess = some e → sessionFor params dec c = some e) ∧
    (storeGet c.id dec.sess = none → (c.T = 0 ∨ c.F = 0 ∨ params.kMax * c.T < c.F) →
      sessionFor params dec c = none) ∧
    (storeGet c.id dec.sess = none → 1 ≤ c.T → 1 ≤ c.F → c.F ≤ params.kMax * c.T →
      ∃ k, (k - 1) * c.T < c.F ∧ c.F ≤ k * c.T ∧ k ≤ params.kMax ∧ sessionFor params dec c = some ⟨c.F, c.T, k, []⟩)

/-- R77, R78, R79, R82, R86: a symbol whose ESI the session already holds (R36: it changes nothing; assumption 7), or that
leaves its session with fewer than K symbols: the session holds the symbol first stored for each ESI, everything outside the
window goes, and the answer is NEED_MORE. -/
def Obligations.FeedNeedsMore : Prop :=
  ∀ (C : Bytes) (s : State) (c : Coded) (e e' : Session), s.configured = true → s.cfg.mode.getLsbD 0 = true →
    codedFields s.cfg C = some c → c.id ∉ s.dec.decoded → sessionFor s.params s.dec c = some e →
    c.esi.toNat < s.params.esiLimit → c.sym.length = e.T →
    ((storeGet c.esi e.syms).isSome ∧ e' = e ∨
      storeGet c.esi e.syms = none ∧ e' = { e with syms := storePut c.esi c.sym e.syms } ∧ e'.syms.length < e.K) →
    exec (.decFeed C) s = .next { s with
      dec :=
        { sess := (storePut c.id e' s.dec.sess).filter (fun p => inWindow p.1 c.id)
          decoded := s.dec.decoded.filter (fun x => inWindow x c.id) }
      response := some ⟨.needMore, c.id, []⟩ }

/-- R79, R80, R81, R82: a new symbol with which its session holds K symbols or more: one call of the code. If the code
answers a payload, the session goes, the block is marked decoded, the sweep runs, and the datagrams are the items, or none
with DECODED_BADDIR where the directory is malformed. If it answers `None`, the session stays and the answer is NEED_MORE.
The draw count, which goes up by one, is the model's own field (assumption 6). -/
def Obligations.FeedDecodes : Prop :=
  ∀ (C : Bytes) (s : State) (c : Coded) (e e' : Session), s.configured = true → s.cfg.mode.getLsbD 0 = true →
    codedFields s.cfg C = some c → c.id ∉ s.dec.decoded → sessionFor s.params s.dec c = some e →
    c.esi.toNat < s.params.esiLimit → c.sym.length = e.T → storeGet c.esi e.syms = none →
    e' = { e with syms := storePut c.esi c.sym e.syms } →
    e.K ≤ e'.syms.length →
    exec (.decFeed C) s = .next
      (match codeDecode s.params s.draws e.F e.T e.K e'.syms with
      | some B => { s with
        dec :=
          { sess := s.dec.sess.filter (fun p => decide (p.1 ≠ c.id) && inWindow p.1 c.id)
            decoded := (idSetInsert c.id s.dec.decoded).filter (fun x => inWindow x c.id) }
        draws := s.draws + 1
        response := some ⟨if (parseDir B).isSome then .decoded else .decodedBaddir, c.id, (parseDir B).getD []⟩ }
      | none => { s with
        dec :=
          { sess := (storePut c.id e' s.dec.sess).filter (fun p => inWindow p.1 c.id)
            decoded := s.dec.decoded.filter (fun x => inWindow x c.id) }
        draws := s.draws + 1
        response := some ⟨.needMore, c.id, []⟩ })

/-- R74: on a live session the F and T of a packet are ignored: in Dynamic mode two coded remainders that differ in
their 12-byte header alone do the same. -/
def Obligations.LiveSessionIgnoresHeader : Prop :=
  ∀ (h h' tail : Bytes) (id : BlockId) (e : Session) (s : State), h.length = 12 → h'.length = 12 → 4 ≤ tail.length →
    s.cfg.mode.getLsbD 1 = true → tail.head? = some id → storeGet id s.dec.sess = some e →
    exec (.decFeed (h ++ tail)) s = exec (.decFeed (h' ++ tail)) s

/-- R46, R55: the reserved byte, Z, N and Al of the Dynamic FEC header are ignored. -/
def Obligations.IgnoredHeaderBytes : Prop :=
  ∀ (F5 T2 tail : Bytes) (res res' Z Z' N1 N1' N2 N2' Al Al' : Byte) (s : State), F5.length = 5 → T2.length = 2 →
    s.cfg.mode.getLsbD 1 = true →
    exec (.decFeed (F5 ++ [res] ++ T2 ++ [Z, N1, N2, Al] ++ tail)) s =
      exec (.decFeed (F5 ++ [res'] ++ T2 ++ [Z', N1', N2', Al'] ++ tail)) s

/-- R83 law 2, R36: a block is never decoded early: DECODED and DECODED_BADDIR come only from a new symbol with which its
session holds at least K distinct symbols. -/
def Obligations.NeverDecodesEarly : Prop :=
  ∀ (C : Bytes) (s t : State) (r : Response) (c : Coded) (e : Session), s.configured = true →
    codedFields s.cfg C = some c → sessionFor s.params s.dec c = some e →
    (e.syms.length + 1 < e.K ∨ (storeGet c.esi e.syms).isSome) →
    exec (.decFeed C) s = .next t → t.response = some r → r.status ≠ .decoded ∧ r.status ≠ .decodedBaddir

/-- R3, R36: DEC_FEED and RX_PACKET write the decoder's state, the draw count and the response alone. -/
def Obligations.DecoderCommandsFrame : Prop :=
  ∀ (i : Instr) (s t : State), i.opcode ∈ [Opcode.decFeed, .rxPacket] → exec i s = .next t →
    t = { s with dec := t.dec, draws := t.draws, response := t.response }

/-- R3: the decoder's commands do not read the encoder's state: with another encoder state they do the same. -/
def Obligations.DecoderIgnoresEncoder : Prop :=
  ∀ (i : Instr) (s : State) (enc : Encoder), i.opcode ∈ [Opcode.decFeed, .rxPacket] →
    ∃ t, exec i s = .next t ∧ exec i { s with enc := enc } = .next { t with enc := enc }

/-- R48, R81: the directory of any datagrams that fit a block gives exactly those datagrams back, in order, whatever
stands between the data and the offset list. -/
def Obligations.DirectoryRoundTrip : Prop :=
  ∀ (ds : List Bytes) (pad : Bytes) (id : BlockId), ds.length ≤ 255 → ds.flatten.length ≤ 65535 →
    let enc := ds.foldl Encoder.append { id := id, accData := [], accOffs := [] }
    enc.accData = ds.flatten ∧ parseDir (enc.accData ++ pad ++ makeDir enc.accOffs) = some ds

/-- R81: ParseDir is BAD exactly where the payload is empty, too short for its count, or has an offset that falls below
the one before it or beyond the data region; and what it answers is cut from the data region without gap or overlap. -/
def Obligations.DirectoryParserChecks : Prop :=
  parseDir [] = none ∧
  (∀ (B : Bytes) (last : Byte), B.length < 2 * last.toNat → parseDir (B ++ [last]) = none) ∧
  ∀ (D : Bytes) (os : List Nat) (last : Byte), os.length = last.toNat → (∀ o ∈ os, o < 2 ^ 16) →
    (parseDir (D ++ os.flatMap (be 2) ++ [last]) ≠ none ↔ os.Pairwise (· ≤ ·) ∧ ∀ o ∈ os, o ≤ D.length) ∧
    (∀ out, parseDir (D ++ os.flatMap (be 2) ++ [last]) = some out →
      out.length = os.length ∧ out.flatten = D.take (os.getLast?.getD 0))

/-! ### Session cache (43_session_cache.md) -/

/-- R84, R85: the window predicate, in the three forms of R85, and its 127 members, for every centre. -/
def Obligations.WindowForms : Prop :=
  ∀ c : BlockId,
    (∀ x : BlockId, inWindow x c = true ↔ (fwd x c ≤ 63 ∨ 193 ≤ fwd x c)) ∧
    (∀ x : BlockId, inWindow x c = true ↔ (-63 ≤ delta x c ∧ delta x c ≤ 63)) ∧
    (∀ x : BlockId, inWindowSourceForm x c = inWindow x c) ∧
    (c.toNat + 256 - 64) % 256 ≠ (c.toNat + 64) % 256 ∧
    ((List.range 256).filter fun n => inWindow (BitVec.ofNat 8 n) c).length = 127

/-- R82, R86: after a DEC_FEED that was not dropped, everything in the cache lies in the window of the packet's block;
every other entry inside the window is as before; and nothing is added but the packet's own block. -/
def Obligations.AcceptedFeedSweeps : Prop :=
  ∀ (C : Bytes) (s t : State) (r : Response), s.configured = true → exec (.decFeed C) s = .next t →
    t.response = some r → r.status.isDrop = false →
    (∀ x, x ∈ storeKeys t.dec.sess ∨ x ∈ t.dec.decoded → inWindow x r.aux = true) ∧
    (∀ x, x ≠ r.aux → storeGet x t.dec.sess = (if inWindow x r.aux then storeGet x s.dec.sess else none)) ∧
    (∀ x, x ≠ r.aux → (x ∈ t.dec.decoded ↔ x ∈ s.dec.decoded ∧ inWindow x r.aux = true)) ∧
    (r.aux ∈ storeKeys t.dec.sess ∨ r.aux ∈ t.dec.decoded)

/-- R87: eviction timing. The entry of a block survives an accepted packet `j` identifiers later for `j` up to 63 (and
for `j` from 193 on, which is 63 or less behind it) and is removed from the 64th on. -/
def Obligations.EvictionTiming : Prop :=
  ∀ (C : Bytes) (s t : State) (r : Response) (x : BlockId) (j : Nat), s.configured = true → 1 ≤ j → j ≤ 255 →
    exec (.decFeed C) s = .next t → t.response = some r → r.status.isDrop = false → r.aux = x + BitVec.ofNat 8 j →
    ((j ≤ 63 ∨ 193 ≤ j) → storeGet x t.dec.sess = storeGet x s.dec.sess ∧ (x ∈ t.dec.decoded ↔ x ∈ s.dec.decoded)) ∧
    (64 ≤ j → j ≤ 192 → storeGet x t.dec.sess = none ∧ x ∉ t.dec.decoded)

/-! ### The link, end to end -/

/-- R83 laws 1 and 4, R69: round trip under loss. BuildBlock builds a block of the datagrams `ds`: by `PushSequence` that is
every block that ENC_PUSH closes (at the threshold, at 255 datagrams, by the pre-build) and every one that ENC_FLUSH does. A
receiver with the same MAGIC, MODE and static constants, that holds nothing for that block, is given any k distinct packets of
it, in any order, and nothing else meanwhile. Each answers NEED_MORE until the k-th, which answers DECODED with exactly `ds`.
In Dynamic mode the two ends share no constants (law 4). A packet longer than 65535 bytes has no RX_PACKET frame (R50), so
none may be (assumption 14). Both ends have one code (assumption 16). The last premise is assumption 5: some code meets law 2
on the first symbols of the block, those given among them (this holds for every block once T ≥ 3, and always for k = 1 or a
single repair symbol), or the packets given are the source packets. -/
def Obligations.RoundTripUnderLoss : Prop :=
  ∀ (params : Params) (cfg : ConfigRegs) (id : BlockId) (enc' : Encoder) (rx : State) (ds : List Bytes)
    (packets : List Bytes) (k : Nat) (es : List Nat),
    ConfigOk params cfg → cfg.mode.getLsbD 0 = true →
    1 ≤ ds.length → ds.length ≤ 255 → ds.flatten.length ≤ 65535 →
    buildBlock cfg params (ds.foldl Encoder.append { id := id, accData := [], accOffs := [] }) =
      ⟨.built, packets, enc'⟩ →
    packets.length = k + cfg.repairCount.toNat →
    BlockInv rx → rx.configured = true → rx.params = params → params.wf →
    rx.cfg.magic = cfg.magic → rx.cfg.mode = cfg.mode →
    (cfg.mode.getLsbD 1 = false →
      rx.cfg.staticBlockSize = cfg.staticBlockSize ∧ rx.cfg.staticPacketSize = cfg.staticPacketSize) →
    (∀ p ∈ packets, p.length ≤ 65535) →
    storeGet id rx.dec.sess = none → id ∉ rx.dec.decoded →
    es.Nodup → es.length = k → (∀ e ∈ es, e < packets.length) →
    ((∃ m, m ≤ packets.length ∧ LawTwoPossible cfg.symT.toNat k m ∧ ∀ e ∈ es, e < m) ∨ ∀ e ∈ es, e < k) →
    (∀ n, n ≤ k → ∃ u, Sys2Proof.core.run n { rx with
        port := es.map fun e => .command (encode (.rxPacket (packets.getD e []))) } = .next u ∧
      (1 ≤ n → n < k → u.response = some ⟨.needMore, id, []⟩) ∧
      (n = k → u.response = some ⟨.decoded, id, ds⟩ ∧ id ∈ u.dec.decoded ∧
        storeGet id u.dec.sess = none))
end

