-- ==== Sys2Proof/Laws/Assembler.lean ====
section
/-! SUPPORT. The assembler's operands (R56). -/

namespace Sys2Proof.Laws

open Sys2Proof.Machine

theorem except_map_ok {α β ε : Type} {x : Except ε α} {f : α → β} {b : β} (h : x.map f = .ok b) :
    ∃ a, x = .ok a ∧ f a = b := by
  cases x with
  | error e => cases h
  | ok a => exact ⟨a, rfl, by injection h⟩

theorem except_bind_ok {α β ε : Type} {x : Except ε α} {f : α → Except ε β} {b : β} (h : x >>= f = .ok b) :
    ∃ a, x = .ok a ∧ f a = .ok b := by
  cases x with
  | error e => cases h
  | ok a => exact ⟨a, rfl, h⟩

/-- R56: a `<bytes>` operand has a 16-bit length. -/
theorem bytesOperand_length {env : AsmEnv} {t : Token} {b : Bytes} (h : bytesOperand env t = .ok b) :
    b.length ≤ 65535 := by
  unfold bytesOperand at h
  simp only at h
  split at h
  · split at h
    · injection h with h; subst h; assumption
    · cases h
  · cases h

end Sys2Proof.Laws
end

