-- ==== Sys2Proof/Laws/Store.lean ====
section
/-! SUPPORT. The laws of the canonical maps and sets: reading after writing, and that every operation keeps the canonical
form. -/

namespace Sys2Proof.Laws

open Sys2Proof.Machine

variable {w : Nat} {α : Type}

theorem storeGet_put (k k' : BitVec w) (v : α) (m : Store w α) :
    storeGet k' (storePut k v m) = if k' = k then some v else storeGet k' m := by
  induction m with
  | nil => simp [storePut, storeGet]
  | cons e m ih =>
    obtain ⟨a, b⟩ := e
    simp only [storePut]
    split
    · simp [storeGet]
    · split
      · rename_i hka
        subst hka
        simp only [storeGet]
        split <;> rfl
      · rename_i hka
        simp only [storeGet, ih]
        split
        · rename_i h
          have : ¬ k' = k := fun hh => hka (hh ▸ h)
          simp [this]
        · rfl

@[simp] theorem storeGet_put_self (k : BitVec w) (v : α) (m : Store w α) :
    storeGet k (storePut k v m) = some v := by
  simp [storeGet_put]

theorem storeGet_keep (p : BitVec w → Bool) (k : BitVec w) (m : Store w α) :
    storeGet k (storeKeep p m) = if p k then storeGet k m else none := by
  induction m with
  | nil => simp [storeKeep, storeGet]
  | cons e m ih =>
    obtain ⟨a, b⟩ := e
    simp only [storeKeep, List.filter_cons] at ih ⊢
    by_cases hk : k = a
    · subst hk
      cases hp : p k with
      | true => simp [storeGet]
      | false => simpa [hp] using ih
    · cases hp : p a with
      | true => simp [storeGet, hk, ih]
      | false => simp [storeGet, hk, ih]

theorem storeErase_eq_keep (k : BitVec w) (m : Store w α) :
    storeErase k m = storeKeep (fun x => decide (x ≠ k)) m := rfl

theorem storeGet_erase (k k' : BitVec w) (m : Store w α) :
    storeGet k' (storeErase k m) = if k' = k then none else storeGet k' m := by
  rw [storeErase_eq_keep, storeGet_keep]
  by_cases h : k' = k <;> simp [h]

theorem storeGet_mem {k : BitVec w} {v : α} {m : Store w α} (h : storeGet k m = some v) : (k, v) ∈ m := by
  induction m with
  | nil => simp [storeGet] at h
  | cons e m ih =>
    obtain ⟨a, b⟩ := e
    simp only [storeGet] at h
    split at h
    · rename_i hk
      injection h with h
      simp [hk, h]
    · exact List.mem_cons_of_mem _ (ih h)

theorem storeGet_eq_none_iff {k : BitVec w} {m : Store w α} : storeGet k m = none ↔ k ∉ storeKeys m := by
  induction m with
  | nil => simp [storeGet, storeKeys]
  | cons e m ih =>
    obtain ⟨a, b⟩ := e
    simp only [storeGet, storeKeys, List.map_cons, List.mem_cons] at ih ⊢
    split
    · rename_i h; simp [h]
    · rename_i h; simp [h, ih]

theorem storeGet_isSome_iff {k : BitVec w} {m : Store w α} : (storeGet k m).isSome = true ↔ k ∈ storeKeys m := by
  rw [← not_iff_not, ← storeGet_eq_none_iff]
  cases storeGet k m <;> simp

theorem mem_storePut {k : BitVec w} {v : α} {m : Store w α} {p : BitVec w × α} (h : p ∈ storePut k v m) :
    p = (k, v) ∨ p ∈ m := by
  induction m with
  | nil => simpa [storePut] using h
  | cons e m ih =>
    obtain ⟨a, b⟩ := e
    simp only [storePut] at h
    split at h
    · simpa using h
    · split at h
      · rcases List.mem_cons.1 h with h | h
        · exact .inl h
        · exact .inr (List.mem_cons_of_mem _ h)
      · rcases List.mem_cons.1 h with h | h
        · exact .inr (by simp [h])
        · rcases ih h with h | h
          · exact .inl h
          · exact .inr (List.mem_cons_of_mem _ h)

theorem mem_storeKeys_put {k x : BitVec w} {v : α} {m : Store w α} :
    x ∈ storeKeys (storePut k v m) ↔ x = k ∨ x ∈ storeKeys m := by
  rw [← storeGet_isSome_iff, ← storeGet_isSome_iff, storeGet_put]
  by_cases h : x = k <;> simp [h]

theorem storeWf_put {k : BitVec w} {v : α} {m : Store w α} (h : storeWf m) : storeWf (storePut k v m) := by
  induction m with
  | nil => simp [storePut, storeWf]
  | cons e m ih =>
    obtain ⟨a, b⟩ := e
    simp only [storeWf, List.pairwise_cons] at h
    simp only [storePut]
    split
    · rename_i hlt
      simp only [storeWf, List.pairwise_cons, List.mem_cons, forall_eq_or_imp]
      exact ⟨⟨hlt, fun p hp => hlt.trans (h.1 p hp)⟩, h⟩
    · split
      · rename_i hka
        subst hka
        simpa [storeWf] using h
      · rename_i hlt hka
        simp only [storeWf, List.pairwise_cons]
        refine ⟨fun p hp => ?_, ih h.2⟩
        rcases mem_storePut hp with rfl | hp
        · have : a.toNat ≠ k.toNat := fun hh => hka (BitVec.eq_of_toNat_eq hh.symm)
          simp only [not_lt] at hlt
          show a.toNat < k.toNat
          omega
        · exact h.1 p hp

theorem storeWf_keep {p : BitVec w → Bool} {m : Store w α} (h : storeWf m) : storeWf (storeKeep p m) :=
  h.filter _

theorem storeWf_erase {k : BitVec w} {m : Store w α} (h : storeWf m) : storeWf (storeErase k m) :=
  h.filter _

theorem mem_storeKeep {p : BitVec w → Bool} {m : Store w α} {x : BitVec w × α} :
    x ∈ storeKeep p m ↔ x ∈ m ∧ p x.1 = true := by
  simp [storeKeep]

theorem mem_storeErase {k : BitVec w} {m : Store w α} {x : BitVec w × α} :
    x ∈ storeErase k m ↔ x ∈ m ∧ x.1 ≠ k := by
  simp [storeErase]

theorem mem_storeKeys_keep {p : BitVec w → Bool} {m : Store w α} {x : BitVec w} :
    x ∈ storeKeys (storeKeep p m) ↔ x ∈ storeKeys m ∧ p x = true := by
  rw [← storeGet_isSome_iff, ← storeGet_isSome_iff, storeGet_keep]
  by_cases h : p x <;> simp [h]

theorem mem_storeKeys_erase {k : BitVec w} {m : Store w α} {x : BitVec w} :
    x ∈ storeKeys (storeErase k m) ↔ x ∈ storeKeys m ∧ x ≠ k := by
  rw [storeErase_eq_keep, mem_storeKeys_keep]; simp

theorem storePut_length_of_none {k : BitVec w} {v : α} {m : Store w α} (h : storeGet k m = none) :
    (storePut k v m).length = m.length + 1 := by
  induction m with
  | nil => rfl
  | cons e m ih =>
    obtain ⟨a, b⟩ := e
    simp only [storeGet] at h
    split at h
    · exact absurd h (by simp)
    · rename_i hka
      simp only [storePut, hka, if_false]
      split
      · simp
      · simp [ih h]

/-- Of two values of one key in a canonical map, the map's read gives both: they are the same. -/
theorem storeGet_of_mem {k : BitVec w} {v : α} {m : Store w α} (hwf : storeWf m) (h : (k, v) ∈ m) :
    storeGet k m = some v := by
  induction m with
  | nil => simp at h
  | cons e m ih =>
    obtain ⟨a, b⟩ := e
    simp only [storeWf, List.pairwise_cons] at hwf
    simp only [storeGet]
    rcases List.mem_cons.1 h with hp | hp
    · injection hp with h1 h2
      simp [h1, h2]
    · have hne : k ≠ a := by
        intro hka
        have hlt := hwf.1 _ hp
        simp [hka] at hlt
      simp [hne, ih hwf.2 hp]

theorem mem_idSetInsert {k x : BitVec w} {m : IdSet w} : x ∈ idSetInsert k m ↔ x = k ∨ x ∈ m := by
  induction m with
  | nil => simp [idSetInsert]
  | cons a m ih =>
    simp only [idSetInsert]
    split
    · simp
    · split
      · rename_i h; subst h; simp
      · simp only [List.mem_cons, ih]; tauto

theorem idSetWf_insert {k : BitVec w} {m : IdSet w} (h : idSetWf m) : idSetWf (idSetInsert k m) := by
  induction m with
  | nil => simp [idSetInsert, idSetWf]
  | cons a m ih =>
    simp only [idSetWf, List.pairwise_cons] at h
    simp only [idSetInsert]
    split
    · rename_i hlt
      simp only [idSetWf, List.pairwise_cons, List.mem_cons, forall_eq_or_imp]
      exact ⟨⟨hlt, fun p hp => hlt.trans (h.1 p hp)⟩, h⟩
    · split
      · simpa [idSetWf] using h
      · rename_i hlt hka
        simp only [idSetWf, List.pairwise_cons]
        refine ⟨fun p hp => ?_, ih h.2⟩
        rcases mem_idSetInsert.1 hp with rfl | hp
        · have : a.toNat ≠ p.toNat := fun hh => hka (BitVec.eq_of_toNat_eq hh.symm)
          simp only [not_lt] at hlt
          omega
        · exact h.1 p hp

theorem idSetWf_keep {p : BitVec w → Bool} {m : IdSet w} (h : idSetWf m) : idSetWf (idSetKeep p m) :=
  h.filter _

theorem mem_idSetKeep {p : BitVec w → Bool} {m : IdSet w} {x : BitVec w} :
    x ∈ idSetKeep p m ↔ x ∈ m ∧ p x = true := by
  simp [idSetKeep]

/-- A canonical map is determined by what it reads as: equal maps are equal data. -/
theorem storeWf_ext {m m' : Store w α} (h : storeWf m) (h' : storeWf m')
    (hg : ∀ k, storeGet k m = storeGet k m') : m = m' := by
  have hmem : ∀ p : BitVec w × α, p ∈ m ↔ p ∈ m' := by
    rintro ⟨k, v⟩
    constructor
    · intro hp
      exact storeGet_mem (by rw [← hg, storeGet_of_mem h hp])
    · intro hp
      exact storeGet_mem (by rw [hg, storeGet_of_mem h' hp])
  have hn : m.Nodup := h.imp fun hab he => by simp [he] at hab
  have hn' : m'.Nodup := h'.imp fun hab he => by simp [he] at hab
  exact ((List.perm_ext_iff_of_nodup hn hn').2 hmem).eq_of_pairwise
    (fun a b _ _ hab hba => absurd hab (by omega)) h h'

theorem storeKeys_length {w} {α} (m : Store w α) : (storeKeys m).length = m.length := by simp [storeKeys]

/-- R80, R86: a session put, then erased, then swept: only the others are left. -/
theorem storeKeep_erase_put {w} {α} (p : BitVec w → Bool) (k : BitVec w) (v : α) (m : Store w α) :
    storeKeep p (storeErase k (storePut k v m)) = m.filter (fun q => decide (q.1 ≠ k) && p q.1) := by
  have : storeErase k (storePut k v m) = storeErase k m := by
    induction m with
    | nil => simp [storePut, storeErase]
    | cons a m ih =>
      obtain ⟨a, b⟩ := a
      simp only [storePut]
      split
      · simp [storeErase]
      · split
        · rename_i h; subst h; simp [storeErase]
        · simp only [storeErase, List.filter_cons] at ih ⊢
          rw [ih]
  rw [this, storeKeep, storeErase, List.filter_filter]
  apply List.filter_congr
  intro q _
  rw [Bool.and_comm]

end Sys2Proof.Laws
end

