-- ==== Sys2Proof/Laws/Code.lean ====
section
/-! SUPPORT. The laws of R70 for the two code operations; where law 2 can be met (`lawTwoPossible_…`), and where not. -/

namespace Sys2Proof.Laws

open Sys2Proof.Machine

/-- R70 law 1. -/
theorem codeSym_source {params : Params} {P : Bytes} {T k e : Nat} (h : e < k) :
    codeSym params P T k e = slice P (e * T) ((e + 1) * T) := by
  simp [codeSym, codeSymbol, h]

/-- R70: a symbol has T bytes. -/
theorem codeSym_length {params : Params} {P : Bytes} {T k e : Nat} (hr : params.inRange T k) (hP : P.length = k * T)
    (he : e < params.esiLimit) : (codeSym params P T k e).length = T := by
  unfold codeSym codeSymbol
  split
  · rename_i h
    exact digit_length hP h
  · exact (Config.code params).repair_length P T k e hr hP (by omega) he

theorem flatMap_length_const {M : Store 24 Bytes} {T : Nat} (h : ∀ p ∈ M, p.2.length = T) :
    (M.flatMap (·.2)).length = M.length * T := by
  induction M with
  | nil => simp
  | cons p M ih =>
    simp only [List.flatMap_cons, List.length_append, List.length_cons]
    rw [ih fun q hq => h q (List.mem_cons_of_mem _ hq), h p List.mem_cons_self]
    ring

/-- A payload is the sequence of its symbols. -/
theorem flatMap_slices {T k : Nat} {P : Bytes} (hP : P.length = k * T) :
    (List.range k).flatMap (fun e => slice P (e * T) ((e + 1) * T)) = P := by
  have hgen : ∀ n, n ≤ k → (List.range n).flatMap (fun e => slice P (e * T) ((e + 1) * T)) = P.take (n * T) := by
    intro n
    induction n with
    | zero => simp
    | succ n ih =>
      intro hn
      rw [List.range_succ, List.flatMap_append, ih (by omega)]
      have h2 : (n + 1) * T - n * T = T := by rw [Nat.succ_mul]; omega
      simp only [List.flatMap_cons, List.flatMap_nil, List.append_nil, slice, h2]
      rw [Nat.succ_mul, List.take_add]
  rw [hgen k le_rfl, ← hP, List.take_length]

/-- R70: what a decode answers has F bytes. -/
theorem codeDecode_length {params : Params} {n F T k : Nat} {M : Store 24 Bytes} {x : Bytes} (hr : params.inRange T k)
    (hF1 : (k - 1) * T < F) (hF2 : F ≤ k * T) (hlen : k ≤ M.length)
    (hM : ∀ p ∈ M, p.1.toNat < params.esiLimit ∧ p.2.length = T) (h : codeDecode params n F T k M = some x) :
    x.length = F := by
  unfold codeDecode at h
  split at h
  · injection h with h
    have h1 : (sourcePayload k M).length = k * T := by
      have h2 := flatMap_length_const (M := M.take k) fun p hp => (hM p (List.mem_of_mem_take hp)).2
      rw [sourcePayload, h2, List.length_take, Nat.min_eq_left hlen]
    rw [← h, List.length_take, h1, Nat.min_eq_left hF2]
  · exact (Config.code params).decode_length n F T k M x hr hF1 hF2 hlen hM h

/-- The source symbols of a map that is genuine for `P` spell `P`. -/
theorem sourcePayload_genuine {params : Params} {T k : Nat} {M : Store 24 Bytes} {P : Bytes} (hP : P.length = k * T)
    (hsrc : sourcesPresent k M = true) (hgen : ∀ p ∈ M, p.2 = codeSym params P T k p.1.toNat) :
    sourcePayload k M = P := by
  have hkeys : (M.take k).map (fun p => p.1.toNat) = List.range k := by simpa [sourcesPresent] using hsrc
  have h1 : (M.take k).map (·.2) = (M.take k).map fun p => slice P (p.1.toNat * T) ((p.1.toNat + 1) * T) := by
    apply List.map_congr_left
    intro p hp
    have hk : p.1.toNat < k := by
      have : p.1.toNat ∈ (M.take k).map (fun p => p.1.toNat) := List.mem_map_of_mem hp
      rw [hkeys] at this
      exact List.mem_range.1 this
    rw [hgen p (List.mem_of_mem_take hp), codeSym_source hk]
  calc sourcePayload k M = ((M.take k).map (·.2)).flatten := by rw [sourcePayload, List.flatMap_def]
    _ = (((M.take k).map fun p => p.1.toNat).map fun e => slice P (e * T) ((e + 1) * T)).flatten := by
        rw [h1, List.map_map]; rfl
    _ = P := by rw [hkeys, ← List.flatMap_def, flatMap_slices hP]

/-- R70 law 2: a map that belongs to one block only decodes to it. -/
theorem codeDecode_determined {params : Params} {n F T k : Nat} {M : Store 24 Bytes} {P : Bytes}
    (hr : params.inRange T k) (hF1 : (k - 1) * T < F) (hF2 : F ≤ k * T) (hP : P.length = k * T) (hwf : storeWf M)
    (hlen : k ≤ M.length) (hesi : ∀ p ∈ M, p.1.toNat < params.esiLimit)
    (hgen : ∀ p ∈ M, p.2 = codeSym params P T k p.1.toNat)
    (hdet : ∀ Q, Q.length = k * T → (∀ p ∈ M, p.2 = codeSym params Q T k p.1.toNat) → Q.take F = P.take F) :
    codeDecode params n F T k M = some (P.take F) := by
  unfold codeDecode
  by_cases hsrc : sourcesPresent k M = true
  · have hpay := sourcePayload_genuine hP hsrc hgen
    have hall : (M.drop k).all (fun p => p.2 == codeSym params (sourcePayload k M) T k p.1.toNat) = true := by
      rw [hpay, List.all_eq_true]
      intro p hp
      rw [beq_iff_eq]
      exact hgen p (List.mem_of_mem_drop hp)
    rw [hsrc, hall, hpay]
    rfl
  · rw [Bool.not_eq_true] at hsrc
    simp only [hsrc, Bool.false_and, Bool.false_eq_true, if_false]
    exact (Config.code params).decode_determined n F T k M P hr hF1 hF2 hP hwf hlen hesi hgen hdet

theorem storeWf_keys_nodup {w : Nat} {α : Type} {M : Store w α} (h : storeWf M) : (M.map (·.1)).Nodup := by
  rw [List.nodup_iff_pairwise_ne, List.pairwise_map]
  exact h.imp fun hab he => by simp [he] at hab

theorem storeWf_esis_nodup {M : Store 24 Bytes} (h : storeWf M) : (M.map (fun p => p.1.toNat)).Nodup := by
  rw [List.nodup_iff_pairwise_ne, List.pairwise_map]
  exact h.imp fun hab => by omega

/-- R70 law 2, as the code has it: where law 2 can be met on the first `m` symbols, any `k` of them belong to one payload
only. -/
theorem genuine_unique {params : Params} {T k m : Nat} {M : Store 24 Bytes} {P Q : Bytes} (hr : params.inRange T k)
    (hm : m ≤ params.esiLimit) (hposs : LawTwoPossible T k m) (hP : P.length = k * T) (hQ : Q.length = k * T)
    (hwf : storeWf M) (hlen : k ≤ M.length) (hesi : ∀ p ∈ M, p.1.toNat < m)
    (hgP : ∀ p ∈ M, p.2 = codeSym params P T k p.1.toNat) (hgQ : ∀ p ∈ M, p.2 = codeSym params Q T k p.1.toNat) :
    P = Q := by
  refine (Config.code params).any_k T k m hr hm hposs P Q hP hQ (M.map fun p => p.1.toNat) (storeWf_esis_nodup hwf)
    (by simpa using hlen) fun e he => ?_
  obtain ⟨p, hp, rfl⟩ := List.mem_map.1 he
  exact ⟨hesi p hp, (hgP p hp).symm.trans (hgQ p hp)⟩

/-- R70 law 2: any `k` symbols of one block decode to it, where law 2 can be met at all on the symbols concerned, or the
map holds every source symbol (assumption 5). -/
theorem codeDecode_genuine {params : Params} {n F T k m : Nat} {M : Store 24 Bytes} {P : Bytes}
    (hr : params.inRange T k) (hF1 : (k - 1) * T < F) (hF2 : F ≤ k * T) (hP : P.length = k * T) (hwf : storeWf M)
    (hlen : k ≤ M.length) (hm : m ≤ params.esiLimit) (hesi : ∀ p ∈ M, p.1.toNat < m)
    (hgen : ∀ p ∈ M, p.2 = codeSym params P T k p.1.toNat)
    (hposs : LawTwoPossible T k m ∨ sourcesPresent k M = true) : codeDecode params n F T k M = some (P.take F) := by
  refine codeDecode_determined hr hF1 hF2 hP hwf hlen (fun p hp => lt_of_lt_of_le (hesi p hp) hm) hgen fun Q hQ hgQ => ?_
  rcases hposs with hposs | hsrc
  · rw [genuine_unique hr hm hposs hP hQ hwf hlen hesi hgen hgQ]
  · rw [← sourcePayload_genuine hP hsrc hgen, ← sourcePayload_genuine hQ hsrc hgQ]

/-! ### Where law 2 can be met -/

/-- A table is a code. -/
theorem lawTwoPossible_of_table {T k n : Nat} (h : TablePossible (256 ^ T) k n) : LawTwoPossible T k n := by
  obtain ⟨tab, htab⟩ := h
  exact ⟨fun P _ _ e => tableColumn tab P e, fun P e _ _ _ => tableColumn_length tab P e, table_anyK (fun _ _ => rfl) htab⟩

/-- Reed-Solomon: evaluate the interpolating polynomial of the message at every field element. -/
theorem reedSolomon_table (T k : Nat) (hT : 1 ≤ T) (hk : k ≤ 256 ^ T) :
    TablePossible (256 ^ T) k (256 ^ T) := by
  have hp : Fact (Nat.Prime 2) := ⟨Nat.prime_two⟩
  let F := GaloisField 2 (8 * T)
  have hF : Finite F := inferInstance
  let _ : Fintype F := Fintype.ofFinite F
  have hcard : Fintype.card F = 256 ^ T := by
    have h := GaloisField.card 2 (8 * T) (by omega)
    rw [Nat.card_eq_fintype_card] at h
    rw [h, pow_mul]; norm_num
  let σ : F ≃ Fin (256 ^ T) := Fintype.equivFinOfCardEq hcard
  let v : Fin k → F := fun i => σ.symm (Fin.castLE hk i)
  have hv : Set.InjOn v (Finset.univ : Finset (Fin k)) := fun a _ b _ h =>
    Fin.castLE_injective hk (σ.symm.injective h)
  let msg : Fin ((256 ^ T) ^ k) → Fin k → F := fun x i => σ.symm (finFunctionFinEquiv.symm x i)
  let pol : Fin ((256 ^ T) ^ k) → Polynomial F := fun x => Lagrange.interpolate Finset.univ v (msg x)
  have hnode : ∀ x i, (pol x).eval (v i) = msg x i := fun x i =>
    Lagrange.eval_interpolate_at_node (msg x) hv (Finset.mem_univ _)
  refine ⟨fun e x => σ ((pol x).eval (σ.symm e)), ?_, ?_⟩
  · intro i h x
    have hi : (pol x).eval (σ.symm i) = msg x ⟨i, h⟩ := hnode x ⟨i, h⟩
    simp [hi, msg]
  · intro S hS x y hxy
    have hdeg : ∀ z, (pol z).degree < S.card := by
      intro z
      have h := Lagrange.degree_interpolate_lt (msg z) hv
      rw [Finset.card_univ, Fintype.card_fin] at h
      rw [hS]
      exact h
    have heq : pol x = pol y :=
      Polynomial.eq_of_degrees_lt_of_eval_index_eq (v := fun e => σ.symm e) S (σ.symm.injective.injOn)
        (hdeg x) (hdeg y) fun e he => σ.injective (hxy e he)
    apply finFunctionFinEquiv.symm.injective
    funext i
    exact σ.symm.injective (by rw [← hnode x i, ← hnode y i, heq] : msg x i = msg y i)

/-- Law 2 can be met on the first `256^T` symbols: at the reference ESI_LIMIT of `2^24`, on all of them once `T ≥ 3`. -/
theorem lawTwoPossible_of_le {T k n : Nat} (hT : 1 ≤ T) (hn : n ≤ 256 ^ T) : LawTwoPossible T k n := by
  by_cases hk : k ≤ 256 ^ T
  · obtain ⟨rep, h1, h2⟩ := lawTwoPossible_of_table (reedSolomon_table T k hT hk)
    exact ⟨rep, fun P e hP hk he => h1 P e hP hk (lt_of_lt_of_le he hn), anyKSuffice_mono h2 hn⟩
  · refine ⟨fun _ T _ _ => zeros T, by simp, fun P Q _ _ es hnd hlen hes => ?_⟩
    have hsub : es.toFinset ⊆ Finset.range n := fun e he => Finset.mem_range.2 (hes e (List.mem_toFinset.1 he)).1
    have := Finset.card_le_card hsub
    rw [List.toFinset_card_of_nodup hnd, Finset.card_range] at this
    omega

/-- Law 2 can be met on all symbols of a block of one source symbol, by repetition. -/
theorem lawTwoPossible_one (T n : Nat) : LawTwoPossible T 1 n := by
  refine ⟨fun P _ _ _ => P, fun P e hP _ _ => by simpa using hP, fun P Q hP hQ es _ hlen hes => ?_⟩
  obtain ⟨e, he⟩ := List.exists_mem_of_length_pos (by omega : 0 < es.length)
  have h := (hes e he).2
  have hs : ∀ R : Bytes, R.length = 1 * T → codeSymbol (fun P _ _ _ => P) R T 1 e = R := by
    intro R hR
    unfold codeSymbol
    split
    · rename_i h0
      have h0 : e = 0 := by omega
      subst h0
      have hR : T = R.length := by omega
      simp [slice, hR]
    · rfl
  rwa [hs P hP, hs Q hQ] at h

/-- Bytewise sum of byte strings of `T` bytes. -/
def byteSum (T : Nat) (l : List Bytes) : Bytes :=
  (List.range T).map fun i => (l.map fun b => b.getD i 0).sum

/-- The parity symbol: the bytewise sum of the source symbols. -/
def parityRepair (P : Bytes) (T k _e : Nat) : Bytes :=
  byteSum T ((List.range k).map fun j => slice P (j * T) ((j + 1) * T))

theorem sum_map_eq_of_ne {l : List Nat} {f g : Nat → BitVec 8} {j : Nat} (hj : j ∈ l) (hnd : l.Nodup)
    (h : ∀ i ∈ l, i ≠ j → f i = g i) (hs : (l.map f).sum = (l.map g).sum) : f j = g j := by
  induction l with
  | nil => cases hj
  | cons a l ih =>
    rw [List.nodup_cons] at hnd
    simp only [List.map_cons, List.sum_cons] at hs
    by_cases ha : a = j
    · subst ha
      have : l.map f = l.map g := List.map_congr_left fun i hi =>
        h i (List.mem_cons_of_mem _ hi) fun he => hnd.1 (he ▸ hi)
      rw [this] at hs
      exact (BitVec.add_left_inj _).1 hs
    · rw [h a List.mem_cons_self ha] at hs
      exact ih ((List.mem_cons.1 hj).resolve_left (Ne.symm ha)) hnd.2 (fun i hi => h i (List.mem_cons_of_mem _ hi))
        ((BitVec.add_right_inj _).1 hs)

/-- Law 2 can be met with one repair symbol, whatever `T` and `k` are: one lost source symbol is repaired. -/
theorem lawTwoPossible_parity (T k : Nat) : LawTwoPossible T k (k + 1) := by
  refine ⟨parityRepair, fun P e _ _ _ => by simp [parityRepair, byteSum], fun P Q hP hQ es hnd hlen hes => ?_⟩
  have hsl : ∀ j, j < k → j ∈ es → slice P (j * T) ((j + 1) * T) = slice Q (j * T) ((j + 1) * T) := by
    intro j hj hm
    have h := (hes j hm).2
    simpa [codeSymbol, hj] using h
  refine eq_of_slices_eq hP hQ fun j hj => ?_
  by_cases hm : j ∈ es
  · exact hsl j hj hm
  · have hall : ∀ i, i < k + 1 → i ≠ j → i ∈ es := by
      intro i hi hij
      by_contra hin
      have hsub : es.toFinset ⊆ ((Finset.range (k + 1)).erase j).erase i := by
        intro e he
        have he := List.mem_toFinset.1 he
        simp only [Finset.mem_erase, Finset.mem_range]
        exact ⟨fun h => hin (h ▸ he), fun h => hm (h ▸ he), (hes e he).1⟩
      have hc := Finset.card_le_card hsub
      rw [List.toFinset_card_of_nodup hnd, Finset.card_erase_of_mem (by simp [hij, hi]),
        Finset.card_erase_of_mem (by simp; omega), Finset.card_range] at hc
      omega
    have hpar := (hes k (hall k (by omega) (by omega))).2
    simp only [codeSymbol, Nat.lt_irrefl, if_false, parityRepair, byteSum, List.map_map] at hpar
    have hlP := digit_length hP hj
    have hlQ := digit_length hQ hj
    refine List.ext_getElem (hlP.trans hlQ.symm) fun i h1 h2 => ?_
    have hi : i < T := by omega
    have hb : ∀ (a b : Nat → BitVec 8), (List.range T).map a = (List.range T).map b → a i = b i := fun a b h =>
      List.map_inj_left.1 h i (List.mem_range.2 hi)
    have hsum := hb _ _ hpar
    have h := sum_map_eq_of_ne (f := fun j => (slice P (j * T) ((j + 1) * T)).getD i 0)
      (g := fun j => (slice Q (j * T) ((j + 1) * T)).getD i 0) (List.mem_range.2 hj) List.nodup_range
      (fun m hmr hmj => by simp only [hsl m (List.mem_range.1 hmr) (hall m (by have := List.mem_range.1 hmr; omega) hmj)])
      hsum
    simpa [List.getD_eq_getElem?_getD, h1, h2] using h

/-- Two of any 257 payloads agree at each identifier, and there are more identifiers than pairs of payloads, so two
payloads agree at two identifiers. -/
theorem two_agree_twice (sym : Fin (2 ^ 16) → Fin (2 ^ 24) → Fin 256) :
    ∃ P Q e f, P ≠ Q ∧ e ≠ f ∧ sym P e = sym Q e ∧ sym P f = sym Q f := by
  let inj : Fin 257 → Fin (2 ^ 16) := Fin.castLE (by norm_num)
  have hinj : Function.Injective inj := Fin.castLE_injective _
  have hcol : ∀ e, ∃ pq : Fin 257 × Fin 257, pq.1 ≠ pq.2 ∧ sym (inj pq.1) e = sym (inj pq.2) e := by
    intro e
    obtain ⟨a, b, hab, heq⟩ := Fintype.exists_ne_map_eq_of_card_lt (fun a : Fin 257 => sym (inj a) e) (by simp)
    exact ⟨(a, b), hab, heq⟩
  choose pair hne heq using hcol
  obtain ⟨e, f, hef, hpe⟩ := Fintype.exists_ne_map_eq_of_card_lt pair (by simp)
  exact ⟨inj (pair e).1, inj (pair e).2, e, f, fun h => hne e (hinj h), hef, heq e, by rw [hpe]; exact heq f⟩

/-- Why law 2 is required only where it can be met (assumption 5): at the reference ESI_LIMIT it can be met by no code for
symbols of one byte and two source symbols. -/
theorem law2_unmet_for_one_byte_symbols : ¬ LawTwoPossible 1 2 (2 ^ 24) := by
  rintro ⟨repair, hlen, hany⟩
  have hsym : ∀ (x : Nat) (e : Fin (2 ^ 24)), (codeSymbol repair (be 2 x) 1 2 e).length = 1 := by
    intro x e
    unfold codeSymbol
    split
    · rename_i h; exact digit_length (by simp) h
    · exact hlen _ _ (by simp) (by omega) e.isLt
  have hlt : ∀ (x : Nat) (e : Fin (2 ^ 24)), unbe (codeSymbol repair (be 2 x) 1 2 e) < 256 := by
    intro x e
    have h := unbe_lt (codeSymbol repair (be 2 x) 1 2 e)
    rwa [hsym, pow_one] at h
  obtain ⟨P, Q, e, f, hPQ, hef, h1, h2⟩ := two_agree_twice fun x e => ⟨_, hlt x.val e⟩
  have hone : ∀ i : Fin (2 ^ 24), (⟨_, hlt P.val i⟩ : Fin 256) = ⟨_, hlt Q.val i⟩ →
      codeSymbol repair (be 2 P.val) 1 2 i = codeSymbol repair (be 2 Q.val) 1 2 i := fun i h =>
    unbe_inj ((hsym _ i).trans (hsym _ i).symm) (congrArg Fin.val h)
  have h := hany (be 2 P.val) (be 2 Q.val) (by simp) (by simp) [e.val, f.val]
    (by simpa [Fin.ext_iff] using hef) (by simp) (by
      intro i hi
      rcases List.mem_cons.1 hi with rfl | hi
      · exact ⟨e.isLt, hone e h1⟩
      · rw [List.mem_singleton.1 hi]; exact ⟨f.isLt, hone f h2⟩)
  have hv := congrArg unbe h
  rw [unbe_be_of_lt (by have := P.isLt; omega), unbe_be_of_lt (by have := Q.isLt; omega)] at hv
  exact hPQ (Fin.ext hv)

/-- The symbol map of a payload on some identifiers. -/
theorem exists_genuine_map (sym : Nat → Bytes) (es : List Nat) (hnd : es.Nodup) (hlt : ∀ e ∈ es, e < 2 ^ 24) :
    ∃ M : Store 24 Bytes, storeWf M ∧ M.length = es.length ∧ ∀ p ∈ M, p.1.toNat ∈ es ∧ p.2 = sym p.1.toNat := by
  induction es with
  | nil => exact ⟨[], List.Pairwise.nil, rfl, by simp⟩
  | cons e es ih =>
    obtain ⟨M, hwf, hlen, hM⟩ := ih (List.nodup_cons.1 hnd).2 fun x hx => hlt x (List.mem_cons_of_mem _ hx)
    have hto : (BitVec.ofNat 24 e).toNat = e := by
      rw [BitVec.toNat_ofNat, Nat.mod_eq_of_lt (hlt e List.mem_cons_self)]
    have hnone : storeGet (BitVec.ofNat 24 e) M = none := by
      rw [storeGet_eq_none_iff]
      intro h
      obtain ⟨p, hp, hpe⟩ := List.mem_map.1 h
      have := (hM p hp).1
      rw [hpe, hto] at this
      exact (List.nodup_cons.1 hnd).1 this
    refine ⟨storePut (BitVec.ofNat 24 e) (sym e) M, storeWf_put hwf, ?_, fun p hp => ?_⟩
    · rw [storePut_length_of_none hnone, hlen]; rfl
    · rcases mem_storePut hp with rfl | hp
      · simp [hto]
      · exact ⟨List.mem_cons_of_mem _ (hM p hp).1, (hM p hp).2⟩

/-- No code is barred (assumption 5): a code that meets R70's laws in full, within R70's ranges, is an `ErasureCode`. -/
theorem erasureCode_of_lawTwo {params : Params} (hwf : params.wf) (repair : Bytes → Nat → Nat → Nat → Bytes)
    (decode : Nat → Nat → Nat → Nat → Store 24 Bytes → Option Bytes)
    (hrep : ∀ P T k e, params.inRange T k → P.length = k * T → k ≤ e → e < params.esiLimit → (repair P T k e).length = T)
    (hdec : ∀ n F T k M x, params.inRange T k → (k - 1) * T < F → F ≤ k * T → k ≤ M.length →
      (∀ p ∈ M, p.1.toNat < params.esiLimit ∧ p.2.length = T) → decode n F T k M = some x → x.length = F)
    (hlaw2 : ∀ n F T k M P, params.inRange T k → (k - 1) * T < F → F ≤ k * T → P.length = k * T → storeWf M →
      k ≤ M.length → (∀ p ∈ M, p.1.toNat < params.esiLimit) → Genuine repair P T k M →
      decode n F T k M = some (P.take F)) :
    ∃ c : ErasureCode params, c.repair = repair ∧ c.decode = decode := by
  refine ⟨⟨repair, decode, hrep, hdec, fun T k n hr hn _ => ?_, fun n F T k M P hr h1 h2 hP hM hl he hg _ =>
    hlaw2 n F T k M P hr h1 h2 hP hM hl he hg⟩, rfl, rfl⟩
  intro P Q hP hQ es hnd hlen hes
  obtain ⟨M, hM, hMl, hMs⟩ := exists_genuine_map (codeSymbol repair P T k) es hnd fun e he =>
    lt_of_lt_of_le (hes e he).1 (hn.trans hwf)
  have hesi : ∀ p ∈ M, p.1.toNat < params.esiLimit := fun p hp => lt_of_lt_of_le (hes _ (hMs p hp).1).1 hn
  have hF : (k - 1) * T < k * T := Nat.mul_lt_mul_of_pos_right (by have := hr.2.2.1; omega) hr.1
  have h1 := hlaw2 0 (k * T) T k M P hr hF le_rfl hP hM (by omega) hesi fun p hp => (hMs p hp).2
  have h2 := hlaw2 0 (k * T) T k M Q hr hF le_rfl hQ hM (by omega) hesi fun p hp =>
    (hMs p hp).2.trans (hes _ (hMs p hp).1).2
  rw [h1] at h2
  injection h2 with h2
  rwa [← hP, List.take_length, hP, ← hQ, List.take_length] at h2

theorem storeWf_keys_lt {M : Store 24 Bytes} (h : storeWf M) : (M.map (fun p => p.1.toNat)).Pairwise (· < ·) := by
  rw [List.pairwise_map]; exact h

/-- A strictly rising list that holds the next `k` numbers begins with them. -/
theorem take_eq_range_of_sorted :
    ∀ (k s : Nat) (l : List Nat), l.Pairwise (· < ·) → (∀ x ∈ l, s ≤ x) → (∀ e, s ≤ e → e < s + k → e ∈ l) →
    l.take k = List.range' s k := by
  intro k
  induction k with
  | zero => intro s l _ _ _; simp
  | succ k ih =>
    intro s l hp hs hm
    cases l with
    | nil => exact absurd (hm s le_rfl (by omega)) (by simp)
    | cons a l =>
      have ha := hs a (by simp)
      have hlt := (List.pairwise_cons.1 hp).1
      have : a = s := by
        have := hm s le_rfl (by omega)
        rcases List.mem_cons.1 this with h | h
        · exact h.symm
        · have := hlt s h; omega
      subst this
      rw [List.take_succ_cons, List.range'_succ, ih (a + 1) l (List.pairwise_cons.1 hp).2 (fun x hx => hlt x hx)
          (fun e h1 h2 => ?_)]
      have := hm e (by omega) (by omega)
      rcases List.mem_cons.1 this with h | h
      · omega
      · exact h

/-- A map that holds every source symbol begins with them. -/
theorem sourcesPresent_of_mem {k : Nat} {M : Store 24 Bytes} (hwf : storeWf M)
    (h : ∀ e < k, e ∈ M.map (fun p => p.1.toNat)) :
    sourcesPresent k M = true := by
  unfold sourcesPresent
  rw [beq_iff_eq, List.map_take, take_eq_range_of_sorted k 0 _ (storeWf_keys_lt hwf) (by simp) (fun e _ h2 => h e
      (by omega)), List.range_eq_range']

end Sys2Proof.Laws
end

