-- ==== Sys2Proof/Laws/Control.lean ====
section
/-! SUPPORT. The configuration registers (R17, R22, R90). -/

namespace Sys2Proof.Laws

open Sys2Proof.Machine Sys2Proof.Safety

/-- R17: the reserved bits are clear exactly in the values 0 to 3. -/
theorem modeReservedClear_eq {m : BitVec 8} : modeReservedClear m = decide (m.toNat < 4) := by
  revert m; decide

/-- R22: SYM_T is at least 1 with FEC enabled. -/
theorem symT_pos {p : Params} {cfg : ConfigRegs} (h : ConfigOk p cfg) (hf : modeFec cfg.mode = true) :
    1 ≤ cfg.symT.toNat := by
  obtain ⟨hv, _, _, hs⟩ := h
  unfold configValid at hv
  rw [hs]; unfold derivedSymT
  rw [hf] at hv ⊢
  simp only [if_true] at hv ⊢
  cases hd : modeDynamic cfg.mode with
  | true =>
    simp [hd] at hv ⊢
    have := cfg.packetSize.isLt
    omega
  | false =>
    simp [hd] at hv ⊢
    omega

/-- R21, R90: what CONFIGURE guarantees of the static constants. -/
theorem static_pos {p : Params} {cfg : ConfigRegs} (h : ConfigOk p cfg) (hf : modeFec cfg.mode = true)
    (hd : modeDynamic cfg.mode = false) :
    1 ≤ cfg.staticBlockSize.toNat ∧ 1 ≤ cfg.staticPacketSize.toNat ∧
    ceilDiv cfg.staticBlockSize.toNat cfg.staticPacketSize.toNat ≤ p.kMax ∧ cfg.symT = cfg.staticPacketSize := by
  obtain ⟨hv, _, _, hs⟩ := h
  unfold configValid at hv
  unfold derivedSymT at hs
  rw [hf, hd] at hv hs
  simp at hv hs
  exact ⟨hv.2.1.1, hv.2.1.2, hv.2.2, hs⟩

end Sys2Proof.Laws
end

