-- ==== Sys2Proof/Laws/Window.lean ====
section
/-! SUPPORT. The eviction window and the sweep (R84 to R87, R89). -/

namespace Sys2Proof.Laws

open Sys2Proof.Machine

theorem fwd_lt (x c : BlockId) : fwd x c < 256 := Nat.mod_lt _ (by norm_num)

/-- R85: the window in terms of the forward distance. -/
theorem inWindow_iff (x c : BlockId) : inWindow x c = true ↔ fwd x c ≤ 63 ∨ 193 ≤ fwd x c := by
  have := fwd_lt x c
  rw [inWindow, decide_eq_true_iff, delta]
  split <;> omega

@[simp] theorem fwd_self (c : BlockId) : fwd c c = 0 := by
  simp [fwd]

/-- R86: the centre is always in its own window. -/
@[simp] theorem inWindow_self (c : BlockId) : inWindow c c = true := by
  simp [inWindow_iff]

/-- R84: `j` steps forward from `s`, seen from there, `s` lies `256 - j` steps forward. -/
theorem fwd_add (s : BlockId) (j : Nat) (h1 : 1 ≤ j) (h2 : j ≤ 255) : fwd s (s + BitVec.ofNat 8 j) = 256 - j := by
  have hs := s.isLt
  simp only [fwd, BitVec.toNat_add, BitVec.toNat_ofNat]
  omega

@[simp] theorem sweep_sess (c : BlockId) (dec : Decoder) :
    (sweep c dec).sess = storeKeep (fun x => inWindow x c) dec.sess := rfl

@[simp] theorem sweep_decoded (c : BlockId) (dec : Decoder) :
    (sweep c dec).decoded = idSetKeep (fun x => inWindow x c) dec.decoded := rfl

/-- R86: what a sweep leaves lies in the window. -/
theorem sweep_inWindow {c x : BlockId} {dec : Decoder}
    (h : x ∈ storeKeys (sweep c dec).sess ∨ x ∈ (sweep c dec).decoded) : inWindow x c = true := by
  rcases h with h | h
  · exact ((mem_storeKeys_keep (p := fun y => inWindow y c)).1 h).2
  · exact ((mem_idSetKeep (p := fun y => inWindow y c)).1 h).2

/-- The identifiers of a window, as a list of numbers. -/
def windowIds (c : BlockId) : List Nat := (List.range 127).map fun i => (c.toNat + 193 + i) % 256

theorem mem_windowIds {x c : BlockId} (h : inWindow x c = true) : x.toNat ∈ windowIds c := by
  have hx := x.isLt
  have hc := c.isLt
  rw [inWindow_iff] at h
  simp only [windowIds, List.mem_map, List.mem_range]
  refine ⟨(fwd x c + 63) % 256, ?_, ?_⟩
  · have := fwd_lt x c
    omega
  · simp only [fwd] at h ⊢
    omega

/-- R85, R89: distinct identifiers that lie in one window are at most 127. -/
theorem length_le_of_inWindow {c : BlockId} {l : List BlockId} (hn : l.Nodup) (h : ∀ x ∈ l, inWindow x c = true) :
    l.length ≤ 127 := by
  have hn' : (l.map BitVec.toNat).Nodup := hn.map fun a b hab => BitVec.eq_of_toNat_eq hab
  have hsub : l.map BitVec.toNat ⊆ windowIds c := by
    intro n hn
    obtain ⟨x, hx, rfl⟩ := List.mem_map.1 hn
    exact mem_windowIds (h x hx)
  have := (List.subperm_of_subset hn' hsub).length_le
  simpa [windowIds] using this

end Sys2Proof.Laws
end

