-- ==== Sys2Proof/Laws/Decoder.lean ====
section
/-! SUPPORT. DEC_FEED: what its steps answer and what they leave (R71 to R82, R29). -/

namespace Sys2Proof.Laws

open Sys2Proof.Machine Sys2Proof.Safety

/-- R46, R72: the fields of a Dynamic coded remainder. -/
theorem codedFields_dyn {cfg : ConfigRegs} (hd : modeDynamic cfg.mode = true) (F T e : Nat)
    (res Z N1 N2 Al id : Byte) (sym : Bytes) (hF : F < 2 ^ 40) (hT : T < 2 ^ 16) (he : e < 2 ^ 24) :
    codedFields cfg (be 5 F ++ [res] ++ be 2 T ++ [Z, N1, N2, Al] ++ [id] ++ be 3 e ++ sym) =
    some ⟨F, T, id, BitVec.ofNat 24 e, sym⟩ := by
  unfold codedFields
  rw [hd, if_pos rfl, if_neg (by simp [Config.dynHdrLen, Config.payloadIdLen]; omega)]
  unfold codedAt Config.dynHdrLen Config.payloadIdLen
  have e1 : be 5 F ++ [res] ++ be 2 T ++ [Z, N1, N2, Al] ++ [id] ++ be 3 e ++ sym = [] ++ (be 5 F ++
      ([res] ++ be 2 T ++ [Z, N1, N2, Al] ++ [id] ++ be 3 e ++ sym)) := by simp
  have e2 : be 5 F ++ [res] ++ be 2 T ++ [Z, N1, N2, Al] ++ [id] ++ be 3 e ++ sym = (be 5 F ++ [res]) ++
      (be 2 T ++ ([Z, N1, N2, Al] ++ [id] ++ be 3 e ++ sym)) := by simp
  have e3 : be 5 F ++ [res] ++ be 2 T ++ [Z, N1, N2, Al] ++ [id] ++ be 3 e ++ sym =
      (be 5 F ++ [res] ++ be 2 T ++ [Z, N1, N2, Al] ++ [id]) ++ (be 3 e ++ sym) := by simp
  have e4 : be 5 F ++ [res] ++ be 2 T ++ [Z, N1, N2, Al] ++ [id] ++ be 3 e ++ sym =
      (be 5 F ++ [res] ++ be 2 T ++ [Z, N1, N2, Al]) ++ (id :: (be 3 e ++ sym)) := by simp
  have e5 : be 5 F ++ [res] ++ be 2 T ++ [Z, N1, N2, Al] ++ [id] ++ be 3 e ++ sym =
      (be 5 F ++ [res] ++ be 2 T ++ [Z, N1, N2, Al] ++ [id] ++ be 3 e) ++ sym := by simp
  have f1 := unbe_slice_mid [] ([res] ++ be 2 T ++ [Z, N1, N2, Al] ++ [id] ++ be 3 e ++ sym) 5 F 0 5 rfl rfl
      (by omega)
  have f2 := unbe_slice_mid (be 5 F ++ [res]) ([Z, N1, N2, Al] ++ [id] ++ be 3 e ++ sym) 2 T 6 8 (by simp) rfl
      (by omega)
  have f3 := unbe_slice_mid (be 5 F ++ [res] ++ be 2 T ++ [Z, N1, N2, Al] ++ [id]) sym 3 e 13 16 (by simp) rfl
      (by omega)
  rw [← e1] at f1; rw [← e2] at f2; rw [← e3] at f3
  rw [f1, f2, f3]
  congr 2

/-- R47, R72: the fields of a Static coded remainder. -/
theorem codedFields_static {cfg : ConfigRegs} (hd : modeDynamic cfg.mode = false) (e : Nat) (id : Byte)
    (sym : Bytes) (he : e < 2 ^ 24) :
    codedFields cfg ([id] ++ be 3 e ++ sym) =
    some ⟨cfg.staticBlockSize.toNat, cfg.staticPacketSize.toNat, id, BitVec.ofNat 24 e, sym⟩ := by
  unfold codedFields
  rw [hd, if_neg (by simp), if_neg (by simp [Config.payloadIdLen])]
  unfold codedAt Config.payloadIdLen
  have f3 := unbe_slice_mid [id] sym 3 e 1 4 (by simp) rfl (by omega)
  have e3 : [id] ++ be 3 e ++ sym = [id] ++ (be 3 e ++ sym) := by simp
  rw [e3, f3]
  congr 2

/-- R72: when a coded remainder is too short. -/
theorem codedFields_none_iff (cfg : ConfigRegs) (C : Bytes) :
    codedFields cfg C = none ↔ C.length < (if modeDynamic cfg.mode then 16 else 4) := by
  unfold codedFields Config.dynHdrLen Config.payloadIdLen
  cases modeDynamic cfg.mode <;> simp

/-- R72: a Dynamic coded remainder as a 12-byte header and a tail. -/
theorem codedFields_tail {cfg : ConfigRegs} {h tail : Bytes} (hd : modeDynamic cfg.mode = true)
    (hh : h.length = 12) (ht : 4 ≤ tail.length) :
    codedFields cfg (h ++ tail) =
    some ⟨unbe (slice h 0 5), unbe (slice h 6 8), tail.getD 0 0, BitVec.ofNat 24 (unbe (slice tail 1 4)),
        tail.drop 4⟩ := by
  unfold codedFields codedAt
  rw [hd, if_pos rfl, if_neg (by simp [Config.dynHdrLen, Config.payloadIdLen]; omega)]
  simp only [Config.dynHdrLen, Config.payloadIdLen]
  rw [slice_append_left _ _ _ _ (by omega), slice_append_left _ _ _ _ (by omega), slice_append_shift _ _ _ _
      (by omega), hh]
  rw [List.getD_append_right _ _ _ _ (by omega), hh]
  rw [show (h ++ tail).drop
      (12 + 4) = tail.drop 4 by rw [show 12 + 4 = h.length + 4 by omega, ← List.drop_drop, List.drop_left]]

/-- R26: F and T are in range. -/
theorem codedFields_bounds {cfg : ConfigRegs} {C : Bytes} {c : Coded} (h : codedFields cfg C = some c) :
    c.F < 2 ^ 40 ∧ c.T ≤ 65535 := by
  unfold codedFields Config.dynHdrLen Config.payloadIdLen at h
  split at h
  · split at h
    · cases h
    · rename_i hl
      injection h with h; subst h
      have h1 := unbe_lt (slice C 0 5)
      have h2 := unbe_lt (slice C 6 8)
      rw [slice_length _ _ _ (by omega)] at h1 h2
      simp only [codedAt]
      norm_num at h1 h2 ⊢
      omega
  · split at h
    · cases h
    · injection h with h; subst h
      have := cfg.staticBlockSize.isLt
      have := cfg.staticPacketSize.isLt
      simp only [codedAt]; omega

/-- R74. -/
theorem newSession_eq_none_iff {p : Params} {F T} : newSession p F T = none ↔ T = 0 ∨ F = 0 ∨ p.kMax * T < F := by
  unfold newSession
  split
  · simp; tauto
  · rename_i h
    simp only [not_or] at h
    have : 1 ≤ T := by omega
    split
    · rename_i h2; rw [gt_iff_lt, lt_ceilDiv_iff this] at h2; simp [h2]
    · rename_i h2; rw [gt_iff_lt, lt_ceilDiv_iff this] at h2; simp [h2, h]

/-- R74. -/
theorem newSession_eq_some {p : Params} {F T k} (hT : 1 ≤ T) (hF : 1 ≤ F) (h1 : (k - 1) * T < F) (h2 : F ≤ k * T)
    (hk : k ≤ p.kMax) :
    newSession p F T = some ⟨F, T, k, []⟩ := by
  unfold newSession
  rw [ceilDiv_unique hT hF h1 h2, if_neg (by omega), if_neg (by omega)]

/-- R78. -/
theorem sessionFeed_eq (e : Session) (esi sym) :
    e.feed esi sym = (if (storeGet esi e.syms).isSome then e else { e with syms := storePut esi sym e.syms }) := by
  unfold Session.feed
  cases storeGet esi e.syms <;> simp

/-- R78: a feed changes the symbols alone. -/
theorem sessionFeed_params (e : Session) (esi sym) :
    (e.feed esi sym).F = e.F ∧ (e.feed esi sym).T = e.T ∧ (e.feed esi sym).K = e.K := by
  rw [sessionFeed_eq]; split <;> simp

/-- R80: the two statuses of Finalize. -/
theorem finalize_status (id B dec) :
    (finalize id B dec).1 = .decodedBaddir ∧ (finalize id B dec).2.1 = [] ∨ (finalize id B dec).1 = .decoded := by
  unfold finalize; simp only; split <;> simp

/-- R77 to R82: the statuses of an accepted symbol. -/
theorem acceptSymbol_status (p c e dec n) :
    (acceptSymbol p c e dec n).status = .needMore ∨ (acceptSymbol p c e dec n).status = .decodedBaddir ∨
    (acceptSymbol p c e dec n).status = .decoded := by
  unfold acceptSymbol
  simp only
  split
  · split
    · rcases finalize_status c.id ‹_› { dec with sess := storePut c.id (e.feed c.esi c.sym) dec.sess } with h | h
      · right; left; exact h.1
      · right; right; exact h
    · left; rfl
  · left; rfl

/-- R71: DEC_FEED either drops, with no change, or accepts the symbol. -/
theorem feedCoded_cases (C cfg p dec n) :
    (∃ st aux, st ∈ [Status.dropShort, .dropDup, .dropBadparam, .dropSymlen, .dropBadsym, .dropNofec]
      ∧ feedCoded C cfg p dec n = Feed.drop st aux dec n) ∨
    (modeFec cfg.mode = true ∧ ∃ c e, codedFields cfg C = some c ∧ c.id ∉ dec.decoded ∧ sessionFor p dec c
      = some e ∧ c.esi.toNat < p.esiLimit ∧ c.sym.length = e.T ∧ feedCoded C cfg p dec n = acceptSymbol p c e dec n) := by
  unfold feedCoded
  split
  · exact .inl ⟨_, _, by simp, rfl⟩
  rename_i hm
  split
  · exact .inl ⟨_, _, by simp, rfl⟩
  split
  · exact .inl ⟨_, _, by simp, rfl⟩
  split
  · exact .inl ⟨_, _, by simp, rfl⟩
  split
  · exact .inl ⟨_, _, by simp, rfl⟩
  split
  · exact .inl ⟨_, _, by simp, rfl⟩
  rename_i c hc hd _ e he hesi hl
  exact .inr ⟨by simpa using hm, c, e, hc, hd, he, by omega, by simpa using hl, rfl⟩

/-- R94: the statuses DEC_FEED can give. -/
theorem feedCoded_status (C cfg p dec n) :
    (feedCoded C cfg p dec n).status ∈ [Status.needMore, .decoded, .decodedBaddir, .dropShort, .dropDup,
        .dropBadparam, .dropSymlen, .dropBadsym, .dropNofec] := by
  rcases feedCoded_cases C cfg p dec n with ⟨st, aux, hst, h⟩ | ⟨_, c, e, _, _, _, _, _, h⟩
  · rw [h]; simp only [Feed.drop]; simp at hst ⊢; tauto
  · rw [h]; have := acceptSymbol_status p c e dec n; simp; tauto

/-- R82, R86: what the cache holds after an accepted symbol. -/
theorem acceptSymbol_dec (p : Params) (c : Coded) (e dec n) :
    (∀ x, x ∈ storeKeys (acceptSymbol p c e dec n).dec.sess ∨ x ∈ (acceptSymbol p c e dec n).dec.decoded
      → inWindow x c.id = true) ∧
    (∀ x, x ≠ c.id → storeGet x (acceptSymbol p c e dec n).dec.sess =
      (if inWindow x c.id then storeGet x dec.sess else none)) ∧
    (∀ x, x ≠ c.id → (x ∈ (acceptSymbol p c e dec n).dec.decoded ↔ x ∈ dec.decoded ∧ inWindow x c.id = true)) ∧
    (c.id ∈ storeKeys (acceptSymbol p c e dec n).dec.sess ∨ c.id ∈ (acceptSymbol p c e dec n).dec.decoded) ∧
    (acceptSymbol p c e dec n).aux = c.id := by
  have base : ∀ d : Decoder, (∀ x, x ≠ c.id → storeGet x d.sess = storeGet x dec.sess) → (∀ x, x ≠ c.id →
      (x ∈ d.decoded ↔ x ∈ dec.decoded)) → (c.id ∈ storeKeys d.sess ∨ c.id ∈ d.decoded) →
     (∀ x, x ∈ storeKeys (sweep c.id d).sess ∨ x ∈ (sweep c.id d).decoded → inWindow x c.id = true) ∧
    (∀ x, x ≠ c.id → storeGet x (sweep c.id d).sess = (if inWindow x c.id then storeGet x dec.sess else none)) ∧
    (∀ x, x ≠ c.id → (x ∈ (sweep c.id d).decoded ↔ x ∈ dec.decoded ∧ inWindow x c.id = true)) ∧
    (c.id ∈ storeKeys (sweep c.id d).sess ∨ c.id ∈ (sweep c.id d).decoded) := by
    intro d h1 h2 h3
    refine ⟨fun x => sweep_inWindow, fun x hx => ?_, fun x hx => ?_, ?_⟩
    · rw [sweep_sess, storeGet_keep, h1 x hx]
    · rw [sweep_decoded, mem_idSetKeep, h2 x hx]
    · rw [sweep_sess, sweep_decoded, mem_storeKeys_keep, mem_idSetKeep, inWindow_self]
      simpa using h3
  have fed := base { dec with sess := storePut c.id (e.feed c.esi c.sym) dec.sess }
      (fun x hx => by simp [storeGet_put, hx]) (fun x hx => Iff.rfl) (.inl (mem_storeKeys_put.2 (.inl rfl)))
  have fin := base ⟨storeErase c.id (storePut c.id (e.feed c.esi c.sym) dec.sess), idSetInsert c.id dec.decoded⟩
    (fun x hx => by simp [storeGet_erase, storeGet_put, hx]) (fun x hx => by simp [mem_idSetInsert, hx])
    (.inr (mem_idSetInsert.2 (.inl rfl)))
  unfold acceptSymbol
  simp only
  split
  · split
    · simp only [finalize]
      split <;> exact ⟨fin.1, fin.2.1, fin.2.2.1, fin.2.2.2, trivial⟩
    · exact ⟨fed.1, fed.2.1, fed.2.2.1, fed.2.2.2, rfl⟩
  · exact ⟨fed.1, fed.2.1, fed.2.2.1, fed.2.2.2, rfl⟩

theorem decoderOk_empty (p n) : DecoderOk p n ⟨[], []⟩ := by
  refine ⟨List.Pairwise.nil, List.Pairwise.nil, by simp, 0, by simp [storeKeys]⟩

theorem sessionUndecoded_mono {p : Params} {n m : Nat} (h : n ≤ m) {e : Session} (he : SessionUndecoded p n e) :
    SessionUndecoded p m e := by
  rcases he with he | ⟨k, hk, he⟩
  · exact .inl he
  · exact .inr ⟨k, by omega, he⟩

/-- R26, R74: a candidate session is in range. -/
theorem newSession_ok {p : Params} {F T : Nat} {e : Session} (hF : F < 2 ^ 40) (hT : T ≤ 65535)
    (h : newSession p F T = some e) :
    SessionOk p e ∧ SessionUndecoded p 0 e := by
  unfold newSession at h
  split at h
  · cases h
  · rename_i h1
    split at h
    · cases h
    · injection h with h; subst h
      simp only [not_or] at h1
      refine ⟨⟨by simp only; omega, hF, by simp only; omega, hT, rfl, by simp only; omega, List.Pairwise.nil, by simp⟩, .inl ?_⟩
      simp only [List.length_nil]
      have := ceilDiv_pos (a := F) (b := T) (by omega) (by omega)
      omega

/-- R26, R78. -/
theorem sessionFeed_ok {p : Params} {e : Session} {esi sym} (he : SessionOk p e) (h1 : esi.toNat < p.esiLimit)
    (h2 : sym.length = e.T) :
    SessionOk p (e.feed esi sym) := by
  rw [sessionFeed_eq]
  split
  · exact he
  · obtain ⟨a, b, c, d, f, g, hw, hs⟩ := he
    refine ⟨a, b, c, d, f, g, storeWf_put hw, fun q hq => ?_⟩
    rcases mem_storePut hq with rfl | hq
    · exact ⟨h2, h1⟩
    · exact hs q hq

/-- R29.4, R86: a sweep leaves everything in one window. -/
theorem sweep_decoderOk {p n} {d : Decoder} (c : BlockId) (h1 : storeWf d.sess) (h2 : idSetWf d.decoded)
    (h3 : ∀ q ∈ d.sess, SessionOk p q.2 ∧ SessionUndecoded p n q.2 ∧ q.1 ∉ d.decoded) :
    DecoderOk p n (sweep c d) := by
  refine ⟨storeWf_keep (p := fun x => inWindow x c) h1, idSetWf_keep (p := fun x => inWindow x c) h2,
      fun q hq => ?_, c, fun x => sweep_inWindow⟩
  rw [sweep_sess, mem_storeKeep] at hq
  obtain ⟨a, b, d⟩ := h3 q hq.1
  exact ⟨a, b, fun h => d (mem_idSetKeep.1 (by simpa using h)).1⟩

/-- R29: an accepted symbol keeps the decoder's invariant. -/
theorem acceptSymbol_decoderOk {p : Params} {n : Nat} {dec : Decoder} {c : Coded} {e : Session}
    (hd : DecoderOk p n dec) (he : SessionOk p e) (hu : SessionUndecoded p n e) (hid : c.id ∉ dec.decoded) (h1 : c.esi.toNat < p.esiLimit)
    (h2 : c.sym.length = e.T) :
    DecoderOk p (acceptSymbol p c e dec n).draws (acceptSymbol p c e dec n).dec := by
  obtain ⟨hw, hi, hs, _⟩ := hd
  have he' := sessionFeed_ok he h1 h2
  have fed : ∀ m, n ≤ m → SessionUndecoded p m (e.feed c.esi c.sym) → ∀ q ∈ storePut c.id
      (e.feed c.esi c.sym) dec.sess, SessionOk p q.2 ∧ SessionUndecoded p m q.2 ∧ q.1 ∉ dec.decoded := by
    intro m hm hu q hq
    rcases mem_storePut hq with rfl | hq
    · exact ⟨he', hu, hid⟩
    · obtain ⟨a, b, c⟩ := hs q hq; exact ⟨a, sessionUndecoded_mono hm b, c⟩
  unfold acceptSymbol
  simp only
  split
  · split
    · rename_i B hB
      have fin : DecoderOk p (n + 1)
          (sweep c.id ⟨storeErase c.id (storePut c.id (e.feed c.esi c.sym) dec.sess),
            idSetInsert c.id dec.decoded⟩) := by
        refine sweep_decoderOk _ (storeWf_erase (storeWf_put hw)) (idSetWf_insert hi) fun q hq => ?_
        obtain ⟨hq, hne⟩ := mem_storeErase.1 hq
        rcases mem_storePut hq with rfl | hq
        · exact absurd rfl hne
        · obtain ⟨a, b, c⟩ := hs q hq
          refine ⟨a, sessionUndecoded_mono (by omega) b, fun h => ?_⟩
          rcases mem_idSetInsert.1 h with h | h
          · exact hne h
          · exact c h
      simp only [finalize]
      split <;> exact fin
    · rename_i hB
      exact sweep_decoderOk _ (storeWf_put hw) hi (fed (n + 1) (by omega) (.inr ⟨n, by omega, hB⟩))
  · rename_i hl
    refine sweep_decoderOk _ (storeWf_put hw) hi (fed _ le_rfl ?_)
    by_cases hg : (storeGet c.esi e.syms).isNone
    · exact .inl (by simpa [hg] using hl)
    · rw [sessionFeed_eq, if_pos (by simpa [Option.isSome_iff_ne_none] using hg)]
      exact hu

/-- R29: DEC_FEED keeps the decoder's invariant. -/
theorem feedCoded_decoderOk {C cfg p dec n} (hd : DecoderOk p n dec) :
    DecoderOk p (feedCoded C cfg p dec n).draws (feedCoded C cfg p dec n).dec := by
  rcases feedCoded_cases C cfg p dec n with ⟨st, aux, _, h⟩ | ⟨_, c, e, hc, hid, he, hesi, hl, h⟩
  · rw [h]; exact hd
  · rw [h]
    suffices ho : SessionOk p e ∧ SessionUndecoded p n e from acceptSymbol_decoderOk hd ho.1 ho.2 hid hesi hl
    unfold sessionFor at he
    split at he
    · rename_i e' hg
      injection he with he; subst he
      exact ⟨(hd.2.2.1 _ (storeGet_mem hg)).1, (hd.2.2.1 _ (storeGet_mem hg)).2.1⟩
    · have ho := newSession_ok (codedFields_bounds hc).1 (codedFields_bounds hc).2 he
      exact ⟨ho.1, sessionUndecoded_mono (Nat.zero_le n) ho.2⟩

end Sys2Proof.Laws
end

