-- ==== Sys2Proof/Laws/Encoding.lean ====
section
/-! SUPPORT. The decoder's helpers on the encoder's output, and back (R50, R51). -/

namespace Sys2Proof.Laws

open Sys2Proof.Machine

/-- R51: no two opcodes share a byte, and every opcode is found by its byte. -/
@[simp] theorem opcodeOf_code (op : Opcode) : opcodeOf op.code = some op := by
  cases op <;> decide

theorem code_of_opcodeOf {b : Byte} {op : Opcode} (h : opcodeOf b = some op) : op.code = b := by
  have := List.find?_some h
  simpa using this

/-- R52: a byte that is none of the eight opcodes names nothing. -/
theorem opcodeOf_eq_none_iff {b : Byte} :
    opcodeOf b = none ↔ b ∉ ([0x01, 0x02, 0x03, 0x10, 0x11, 0x20, 0x21, 0x30] : List Byte) := by
  simp only [opcodeOf, opcodeTable, List.find?_eq_none, List.mem_cons, List.not_mem_nil, or_false,
    forall_eq_or_imp, forall_eq, Opcode.code, beq_iff_eq, not_or]
  simp only [eq_comm]

theorem operand_append {w n : Nat} (a c : Bytes) (v : Nat) (hv : v < 256 ^ n) :
    operand w (a ++ (be n v ++ c)) a.length (a.length + n) = BitVec.ofNat w v := by
  have h1 : slice (a ++ (be n v ++ c)) a.length (a.length + n) = be n v := by
    rw [slice_append_right _ _ _ _ rfl, Nat.add_sub_cancel_left, List.take_append_of_le_length (by simp)]
    simp [List.take_of_length_le]
  rw [operand, h1, unbe_be_of_lt hv]

/-- R50: the length field of an encoded tail reads as the length of its body. -/
theorem tailOperand_encode (a body : Bytes) (h : body.length ≤ 65535) :
    tailOperand (a ++ encodeTail body) a.length = some body := by
  have h1 : slice (a ++ encodeTail body) a.length (a.length + 2) = be 2 body.length := by
    rw [slice_append_right _ _ _ _ rfl, Nat.add_sub_cancel_left, encodeTail,
      List.take_append_of_le_length (by simp)]
    simp [List.take_of_length_le]
  have h2 : unbe (be 2 body.length) = body.length := unbe_be_of_lt (by norm_num; omega)
  have h3 : (a ++ encodeTail body).drop (a.length + 2) = body := by
    rw [← List.drop_drop, List.drop_left, encodeTail, List.drop_left' (by simp)]
  unfold tailOperand
  rw [h1, h2, h3, if_pos]
  simp [encodeTail]; omega

theorem tailOperand_eq_some {f body : Bytes} {i : Nat} (h : tailOperand f i = some body) :
    f = f.take i ++ encodeTail body ∧ body.length ≤ 65535 ∧ i + 2 ≤ f.length := by
  unfold tailOperand at h
  split at h
  · rename_i hl
    injection h with h
    have hbl : body.length = unbe (slice f i (i + 2)) := by rw [← h, List.length_drop, hl]; omega
    have hs : (slice f i (i + 2)).length = 2 := by rw [slice_length _ _ _ (by omega)]; omega
    have hlt := unbe_lt (slice f i (i + 2))
    rw [hs] at hlt
    refine ⟨?_, by omega, by omega⟩
    rw [encodeTail, hbl, be_unbe_of_length hs, ← h]
    have h4 : slice f i (i + 2) = (f.drop i).take 2 := by simp [slice]
    rw [h4, ← List.drop_drop, List.take_append_drop, List.take_append_drop]
  · exact absurd h (by simp)

theorem tailOperand_eq_none_iff {f : Bytes} {i : Nat} :
    tailOperand f i = none ↔ f.length ≠ i + 2 + unbe (slice f i (i + 2)) := by
  unfold tailOperand
  split <;> simp_all

/-- A `w`-bit operand written and read back over its whole width. -/
theorem be_operand {n i : Nat} {f : Bytes} (h : i + n ≤ f.length) :
    be n (operand (8 * n) f i (i + n)).toNat = slice f i (i + n) := by
  have hs : (slice f i (i + n)).length = n := by rw [slice_length _ _ _ h]; omega
  have hlt := unbe_lt (slice f i (i + n))
  rw [hs] at hlt
  have h2 : (2 : Nat) ^ (8 * n) = 256 ^ n := by rw [pow_mul]; norm_num
  rw [operand, BitVec.toNat_ofNat, h2, Nat.mod_eq_of_lt hlt, be_unbe_of_length hs]

theorem slice_append_slice {f : Bytes} {i j k : Nat} (hij : i ≤ j) (hjk : j ≤ k) :
    slice f i j ++ slice f j k = slice f i k := by
  have h1 : k - i = (j - i) + (k - j) := by omega
  have h2 : f.drop j = (f.drop i).drop (j - i) := by rw [List.drop_drop]; congr 1; omega
  rw [slice, slice, slice, h1, List.take_add, h2]

end Sys2Proof.Laws
end

