-- ==== Sys2Proof/Laws/Directory.lean ====
section
/-! SUPPORT. The block payload directory, written and parsed (R48, R63, R81). -/

namespace Sys2Proof.Laws

open Sys2Proof.Machine

/-- The data region alone matters to the windows. -/
theorem cutWindows_append (D X : Bytes) (os : List Nat) (lo : Nat) :
    cutWindows (D ++ X) D.length lo os = cutWindows D D.length lo os := by
  induction os generalizing lo with
  | nil => rfl
  | cons o os ih =>
    simp only [cutWindows]
    split
    · rfl
    · rename_i h
      rw [ih, slice_append_left _ _ _ _ (by omega)]

theorem offsets_read (os : List Nat) (h : ∀ o ∈ os, o < 2 ^ 16) (X : Bytes) :
    ∀ i, i < os.length → unbe (slice (os.flatMap (be 2) ++ X) (2 * i) (2 * i + 2)) = os.getD i 0 := by
  induction os with
  | nil => intro i hi; simp at hi
  | cons o os ih =>
    intro i hi
    cases i with
    | zero =>
      have := unbe_slice_mid [] (os.flatMap (be 2) ++ X) 2 o 0 2 rfl rfl (by have := h o (by simp); omega)
      simpa using this
    | succ i =>
      have := ih (fun o ho => h o (by simp [ho])) i (by simpa using hi)
      simp only [List.flatMap_cons, List.append_assoc]
      rw [slice_append_shift _ _ _ _ (by simp)]
      simp only [be_length, List.getD_cons_succ]
      rw [← this]; congr 2

/-- R81: ParseDir on a payload whose directory is written out. -/
theorem parseDir_eq (D : Bytes) (os : List Nat) (last : Byte) (hl : os.length = last.toNat)
    (h : ∀ o ∈ os, o < 2 ^ 16) :
    parseDir (D ++ os.flatMap (be 2) ++ [last]) = cutWindows D D.length 0 os := by
  have hlen : (D ++ os.flatMap
      (be 2) ++ [last]).length = D.length + 2 * last.toNat + 1 := by simp only [List.length_append, flatMap_be_length, List.length_cons, List.length_nil, hl]
  have hlast : (D ++ os.flatMap (be 2) ++ [last]).getD (D.length + 2 * last.toNat + 1 - 1) 0 = last := by
    rw [List.getD_append_right _ _ _ _ (by simp only [List.length_append, flatMap_be_length, hl]; omega)]
    simp only [List.length_append, flatMap_be_length, hl]
    rw [show D.length + 2 * last.toNat + 1 - 1 - (D.length + 2 * last.toNat) = 0 by omega]; rfl
  unfold parseDir
  simp only [hlen]
  rw [if_neg (by omega)]
  simp only [hlast]
  rw [if_neg (by omega), show D.length + 2 * last.toNat + 1 - 1 - 2 * last.toNat = D.length by omega]
  rw [← cutWindows_append D (os.flatMap (be 2) ++ [last]), ← List.append_assoc]
  congr 1
  apply List.ext_getElem
  · simp [hl]
  · intro i h1 h2
    simp only [List.getElem_map, List.getElem_range]
    rw [List.append_assoc, slice_append_shift _ _ _ _ (by omega)]
    rw [show D.length + 2 * i - D.length = 2 * i by omega, show D.length + 2 * i + 2 - D.length = 2 * i + 2 by omega, offsets_read os h _ i h2]
    simp [List.getD_eq_getElem?_getD, h2]

/-- R81: when the offsets are accepted. -/
theorem cutWindows_ne_none_iff (B : Bytes) (L : Nat) (os : List Nat) (lo : Nat) :
    cutWindows B L lo os ≠ none ↔ (lo :: os).Pairwise (· ≤ ·) ∧ ∀ o ∈ os, o ≤ L := by
  induction os generalizing lo with
  | nil => simp [cutWindows]
  | cons o os ih =>
    simp only [cutWindows]
    split
    · rename_i h
      simp only [ne_eq, not_true_eq_false, List.pairwise_cons, List.mem_cons, forall_eq_or_imp, false_iff]
      rintro ⟨⟨⟨h1, _⟩, _⟩, h2, _⟩
      omega
    · rename_i h
      simp only [ne_eq, Option.map_eq_none_iff]
      rw [← ne_eq, ih o]
      simp only [List.pairwise_cons, List.mem_cons, forall_eq_or_imp]
      constructor
      · rintro ⟨⟨h1, h2⟩, h3⟩; exact ⟨⟨⟨by omega, fun a ha => by have := h1 a ha; omega⟩, h1, h2⟩, by omega, h3⟩
      · rintro ⟨⟨_, h1, h2⟩, _, h3⟩; exact ⟨⟨h1, h2⟩, h3⟩

/-- R81: the windows cut the data region without gap or overlap. -/
theorem cutWindows_out (B : Bytes) (L : Nat) (os : List Nat) (lo : Nat) (out) (hlo : lo ≤ L)
    (h : cutWindows B L lo os = some out) :
    out.length = os.length ∧ lo ≤ os.getLast?.getD lo ∧ os.getLast?.getD lo ≤ L ∧ out.flatten =
    slice B lo (os.getLast?.getD lo) := by
  induction os generalizing lo out with
  | nil => simp [cutWindows] at h; subst h; simp [slice, hlo]
  | cons o os ih =>
    simp only [cutWindows] at h
    split at h
    · cases h
    · rename_i hb
      rw [Option.map_eq_some_iff] at h
      obtain ⟨out', h1, rfl⟩ := h
      obtain ⟨h2, h3, h4, h5⟩ := ih o out' (by omega) h1
      have hg : (o :: os).getLast?.getD lo = os.getLast?.getD o := by
        cases os <;> simp [List.getLast?_cons]
      rw [hg]
      refine ⟨by simp [h2], by omega, h4, ?_⟩
      simp only [List.flatten_cons, h5]
      rw [slice_append_slice (by omega) h3]

/-- R48: the end offsets of datagrams that follow `start` bytes. -/
def endOffsets : Nat → List Bytes → List Nat
  | _, [] => []
  | a, d :: ds => (a + d.length) :: endOffsets (a + d.length) ds

theorem endOffsets_length (a ds) : (endOffsets a ds).length = ds.length := by
  induction ds generalizing a <;> simp [endOffsets, *]

theorem endOffsets_le (a ds) : ∀ o ∈ endOffsets a ds, a ≤ o ∧ o ≤ a + ds.flatten.length := by
  induction ds generalizing a with
  | nil => simp [endOffsets]
  | cons d ds ih =>
    intro o ho
    simp only [endOffsets, List.mem_cons] at ho
    simp only [List.flatten_cons, List.length_append]
    rcases ho with rfl | ho
    · omega
    · have := ih _ o ho; omega

/-- R25: what the accumulation buffer holds after some datagrams. -/
theorem foldl_append_eq (ds : List Bytes) (enc : Encoder) :
    ds.foldl Encoder.append enc =
    ⟨enc.id, enc.accData ++ ds.flatten, enc.accOffs ++ (endOffsets enc.accData.length ds).map (BitVec.ofNat 16)⟩ := by
  induction ds generalizing enc with
  | nil => simp [endOffsets]
  | cons d ds ih => simp [ih, Encoder.append, endOffsets]

/-- R48, R81: the windows of the end offsets are the datagrams. -/
theorem cutWindows_endOffsets (ds : List Bytes) (A X : Bytes) :
    cutWindows (A ++ (ds.flatten ++ X)) (A ++ (ds.flatten ++ X)).length A.length
        (endOffsets A.length ds) = some ds := by
  induction ds generalizing A with
  | nil => rfl
  | cons d ds ih =>
    simp only [endOffsets, cutWindows]
    rw [if_neg (by simp only [List.flatten_cons, List.length_append]; omega)]
    have h1 := ih (A ++ d)
    have h2 : slice (A ++ ((d :: ds).flatten ++ X)) A.length (A.length + d.length) = d := by
      rw [slice_append_right _ _ _ _ rfl]; simp
    rw [h2]
    simp only [List.length_append, List.append_assoc] at h1
    simp only [List.flatten_cons, List.append_assoc, List.length_append]
    rw [h1]; rfl

end Sys2Proof.Laws
end

