-- ==== Sys2Proof/Laws/Encoder.lean ====
section
/-! SUPPORT. BuildBlock and its callers: what they emit and what they leave (R63 to R69). -/

namespace Sys2Proof.Laws

open Sys2Proof.Machine Sys2Proof.Safety

theorem flatMap_offs_length (l : List (BitVec 16)) : (l.flatMap fun o => be 2 o.toNat).length = 2 * l.length := by
  induction l with
  | nil => rfl
  | cons a l ih => simp [ih]; omega

/-- R63. -/
theorem makeDir_length (l) : (makeDir l).length = 2 * l.length + 1 := by
  simp [makeDir]; omega

/-- R49: a block payload is never empty. -/
theorem blockPayload_pos {cfg : ConfigRegs} {enc B} (hB : blockPayload cfg enc = some B) :
    1 ≤ B.length := by
  cases hd : modeDynamic cfg.mode with
  | true => simp [blockPayload, hd] at hB; subst hB; simp [makeDir_length]; omega
  | false =>
    simp [blockPayload, hd] at hB; obtain ⟨_, hB⟩ := hB; subst hB; simp [makeDir_length]; omega

/-- R49: a block payload is data, padding and directory. -/
theorem blockPayload_cases {cfg : ConfigRegs} {enc : Encoder} {B : Bytes} (h : blockPayload cfg enc = some B) :
    ∃ pad, B = enc.accData ++ pad ++ makeDir enc.accOffs ∧
    (modeDynamic cfg.mode = false → B.length = cfg.staticBlockSize.toNat) := by
  unfold blockPayload at h
  cases hd : modeDynamic cfg.mode with
  | true => rw [hd] at h; simp at h; exact ⟨[], by simp [h], by simp⟩
  | false =>
    rw [hd] at h; simp at h
    refine ⟨zeros (cfg.staticBlockSize.toNat - enc.accData.length - (makeDir enc.accOffs).length),
        by rw [← h.2]; simp, fun _ => ?_⟩
    rw [← h.2]; simp; omega

theorem map_range_append (k r : Nat) (g : Nat → Bytes) :
    (List.range k).map g ++ (List.range' k r).map g = (List.range (k + r)).map g := by
  rw [← List.map_append, List.range_eq_range', List.range_eq_range']; congr 1; simpa using List.range'_append_1
      (s := 0) (m := k) (n := r)

/-- R54, R65: the packets of a block, by ESI. -/
theorem blockPackets_eq (cfg p id B k r) :
    blockPackets cfg p id B k r =
    (List.range (k + r)).map fun e => codedPacket cfg B.length id e (if e < k then slice (B ++ zeros
      (k * cfg.symT.toNat - B.length)) (e * cfg.symT.toNat) ((e + 1) * cfg.symT.toNat) else codeSym p (B ++ zeros
      (k * cfg.symT.toNat - B.length)) cfg.symT.toNat k e) := by
  rw [← map_range_append]
  unfold blockPackets
  simp only [paddedPayload]
  congr 1
  · apply List.map_congr_left
    intro e he
    rw [if_pos (List.mem_range.1 he)]
  · apply List.map_congr_left
    intro e he
    rw [if_neg (by have := List.mem_range'_1.1 he; omega)]

/-- R65: when a block is built, and what it is. -/
theorem buildBlock_built {cfg : ConfigRegs} {p : Params} {enc : Encoder} {B : Bytes} {k : Nat}
    (h0 : enc.accOffs ≠ []) (hB : blockPayload cfg enc = some B) (hF : 1 ≤ B.length) (hT : 1 ≤ cfg.symT.toNat)
    (h1 : (k - 1) * cfg.symT.toNat < B.length) (h2 : B.length ≤ k * cfg.symT.toNat) (h3 : k ≤ p.kMax)
    (h4 : k + cfg.repairCount.toNat ≤ p.esiLimit) :
    buildBlock cfg p enc = ⟨.built, blockPackets cfg p enc.id B k cfg.repairCount.toNat, ⟨enc.id + 1, [], []⟩⟩ := by
  have hk := ceilDiv_unique hT hF h1 h2
  unfold buildBlock
  rw [if_neg h0, hB]
  simp only [hk]
  rw [if_neg (by omega)]
  rfl

/-- R65: BuildBlock is EMPTY on an empty buffer alone. -/
theorem buildBlock_ne_empty {cfg : ConfigRegs} {p : Params} {enc : Encoder} (h : enc.accOffs ≠ []) :
    (buildBlock cfg p enc).result ≠ .empty := by
  unfold buildBlock
  rw [if_neg h]
  split
  · simp [Build.drop]
  · simp only; split <;> simp [Build.drop]

/-- R24: ENC_ID counts the blocks built. -/
theorem buildBlock_id (cfg p enc) :
    (buildBlock cfg p enc).enc.id = enc.id + BitVec.ofNat 8 (buildBlock cfg p enc).count := by
  unfold buildBlock
  split
  · simp [Build.skip, Build.count]
  · split
    · simp [Build.drop, Build.count, Encoder.clear]
    · simp only; split
      · simp [Build.drop, Build.count, Encoder.clear]
      · simp [Build.count]

theorem preBuild_id (cfg p enc d) :
    (preBuild cfg p enc d).enc.id = enc.id + BitVec.ofNat 8 (preBuild cfg p enc d).count := by
  unfold preBuild; split
  · exact buildBlock_id _ _ _
  · simp [Build.skip, Build.count]

theorem postBuild_id (cfg p enc) :
    (postBuild cfg p enc).enc.id = enc.id + BitVec.ofNat 8 (postBuild cfg p enc).count := by
  unfold postBuild; split
  · exact buildBlock_id _ _ _
  · simp [Build.skip, Build.count]

/-- R65: every packet of a block has the same length. -/
theorem buildBlock_packet_length {p : Params} {cfg : ConfigRegs} {enc} (h : ConfigOk p cfg)
    (hf : modeFec cfg.mode = true) :
    ∀ x ∈ (buildBlock cfg p enc).packets, x.length = 5 +
        (if cfg.mode.getLsbD 1 then 12 else 0) + 4 + cfg.symT.toNat := by
  have hT := symT_pos h hf
  intro x hx
  unfold buildBlock at hx
  split at hx
  · simp [Build.skip] at hx
  · split at hx
    · simp [Build.drop] at hx
    · rename_i B hB
      have hF := blockPayload_pos hB
      simp only at hx
      split at hx
      · simp [Build.drop] at hx
      · rename_i hlim
        simp only [blockPackets_eq, List.mem_map, List.mem_range] at hx
        obtain ⟨e, he, rfl⟩ := hx
        have := cfg.symT.isLt
        have hk := ceilDiv_pos hF hT
        have hle := le_ceilDiv_mul (a := B.length) hT
        have hP : (B ++ zeros
            (ceilDiv B.length cfg.symT.toNat * cfg.symT.toNat - B.length)).length = ceilDiv B.length cfg.symT.toNat * cfg.symT.toNat := by
          simp; omega
        have hsym : ∀ q : Bytes, q.length = cfg.symT.toNat → (codedPacket cfg B.length enc.id e q).length = 5 +
            (if cfg.mode.getLsbD 1 then 12 else 0) + 4 + cfg.symT.toNat := by
          intro q hq
          have hh : cfg.hdrFec.bytes.length = 5 := by simp [WireHeader.bytes]
          have hpe : (packetExtension cfg B.length).length = (if cfg.mode.getLsbD 1 then 12 else 0) := by
            unfold packetExtension
            show _ = if modeDynamic cfg.mode then 12 else 0
            split <;> simp [dynHeader]
          simp only [codedPacket, List.length_append, hh, hpe, be_length, hq, List.length_cons, List.length_nil]
        apply hsym
        split
        · rename_i hek; exact digit_length hP hek
        · exact codeSym_length ⟨hT, by omega, hk, by omega⟩ hP (by omega)

theorem buildStatus_mem (l) : buildStatus l ∈ [Status.ok, .encOversize] := by
  unfold buildStatus; split <;> simp

theorem encoderOk_empty (cfg : ConfigRegs) (id) : EncoderOk cfg ⟨id, [], []⟩ := by
  refine ⟨by simp, by simp, by simp, by simp, by simp, fun _ h => h⟩

/-- R29.3: a buffer that BuildBlock clears meets the invariant. -/
theorem buildBlock_encoderOk {cfg : ConfigRegs} {p : Params} {enc : Encoder}
    (h : (buildBlock cfg p enc).result ≠ .empty) :
    EncoderOk cfg (buildBlock cfg p enc).enc := by
  unfold buildBlock at h ⊢
  split
  · rename_i h0; simp [h0, Build.skip] at h
  · split
    · exact encoderOk_empty _ _
    · simp only; split <;> exact encoderOk_empty _ _

/-- R29.3: ENC_PUSH keeps the buffer's invariant. -/
theorem pushed_encoderOk {cfg : ConfigRegs} {p : Params} {enc : Encoder} {d : Bytes} (he : EncoderOk cfg enc)
    (hf : modeFec cfg.mode = true) (hd : d.length ≤ 65535) :
    EncoderOk cfg (postBuild cfg p ((preBuild cfg p enc d).enc.append d)).enc := by
  have pre : EncoderOk cfg (preBuild cfg p enc d).enc ∧
      (preBuild cfg p enc d).enc.accData.length + d.length ≤ 65535 := by
    unfold preBuild Config.maxData
    split
    · have hne : enc.accOffs ≠ [] := by
        intro h0
        have := he.2.2.2.1
        rw [h0] at this; simp at this
        rename_i h; rw [← this] at h; simp at h; omega
      refine ⟨buildBlock_encoderOk (buildBlock_ne_empty hne), ?_⟩
      have : (buildBlock cfg p enc).enc.accData = [] := by
        unfold buildBlock; rw [if_neg hne]; split
        · rfl
        · simp only; split <;> rfl
      rw [this]; simpa using hd
    · exact ⟨he, by simp only [Build.skip]; omega⟩
  obtain ⟨⟨h1, h2, h3, h4, h5, h6⟩, hl⟩ := pre
  generalize (preBuild cfg p enc d).enc = en at *
  have hne : (en.append d).accOffs ≠ [] := by simp [Encoder.append]
  unfold postBuild
  split
  · exact buildBlock_encoderOk (buildBlock_ne_empty hne)
  · rename_i hb
    simp only [not_or, Config.maxDatagrams, Encoder.append, List.length_append, List.length_cons,
        List.length_nil] at hb
    have hlast : ∀ o ∈ en.accOffs, o.toNat ≤ en.accData.length := by
      intro o ho
      rw [← h4]
      rcases List.eq_nil_or_concat en.accOffs with h | ⟨l, x, h⟩
      · rw [h] at ho; simp at ho
      · rw [h] at ho h3 ⊢
        simp only [List.concat_eq_append, List.getLast?_append, List.pairwise_append, List.mem_append,
            List.mem_singleton] at *
        simp
        rcases ho with ho | rfl
        · exact h3.2.2 o ho x rfl
        · exact le_rfl
    refine ⟨by simp [Build.skip, Encoder.append]; omega, by simp [Build.skip, Encoder.append]; omega, ?_, ?_,
      by simp [hf], fun _ _ => by simp [Build.skip, Encoder.append]; omega⟩
    · simp only [Build.skip, Encoder.append, List.pairwise_append]
      refine ⟨h3, by simp, fun a ha b hb => ?_⟩
      simp at hb; subst hb
      have := hlast a ha
      simp; rw [Nat.mod_eq_of_lt (by omega)]; omega
    · simp [Build.skip, Encoder.append]; omega

end Sys2Proof.Laws
end

