-- ==== Sys2Proof/Laws/Framing.lean ====
section
/-! SUPPORT. The wire header and PARSE's checks, once for PARSE and RX_PACKET (R42, R59). -/

namespace Sys2Proof.Laws

open Sys2Proof.Machine

/-- R42: the bytes of a wire header. -/
theorem wireHeader_bytes (m : BitVec 32) (f : Bool) :
    (wireHeader m f).bytes = be 4 m.toNat ++ [if f then 0x01 else 0x00] := by
  cases f <;> rfl

/-- R59: everything the wire-header checks can answer. -/
theorem parseWire_cases (m : BitVec 32) (b : Bytes) :
    (b.length < 5 → parseWire m b = .error .dropShort) ∧
    (5 ≤ b.length → unbe (slice b 0 4) ≠ m.toNat → parseWire m b = .error .dropForeign) ∧
    (5 ≤ b.length → unbe (slice b 0 4) = m.toNat → b.getD 4 0 ≠ 0x00 → b.getD 4 0 ≠ 0x01 → parseWire m b
      = .error .dropBadhdr) ∧
    (5 ≤ b.length → unbe (slice b 0 4) = m.toNat → b.getD 4 0 = 0x00 → parseWire m b = .ok (false, b.drop 5)) ∧
    (5 ≤ b.length → unbe (slice b 0 4) = m.toNat → b.getD 4 0 = 0x01 → parseWire m b = .ok (true, b.drop 5)) := by
  unfold parseWire Config.wireHdrLen
  refine ⟨fun h => by simp [h], fun h h1 => ?_, fun h h1 h2 h3 => ?_, fun h h1 h2 => ?_, fun h h1 h2 => ?_⟩ <;>
    have h' : ¬ b.length < 5 := by omega
  · rw [if_neg h', if_pos h1]
  · rw [if_neg h', if_neg (by simpa using h1)]; simp only; rw [if_neg h2, if_neg h3]
  · rw [if_neg h', if_neg (by simpa using h1)]; simp only; rw [if_pos h2]
  · rw [if_neg h', if_neg (by simpa using h1)]; simp only; rw [if_neg (by rw [h2]; decide), if_pos h2]

/-- R59: the drops they can raise. -/
theorem parseWire_error {m b st} (h : parseWire m b = .error st) :
    st ∈ [Status.dropForeign, .dropShort, .dropBadhdr] := by
  unfold parseWire at h
  split at h
  · cases h; simp
  split at h
  · cases h; simp
  simp only at h
  split at h
  · cases h
  split at h
  · cases h
  cases h; simp

end Sys2Proof.Laws
end

