-- ==== Sys2Proof/Laws/PerInstr.lean ====
section
/-! SUPPORT. The per-command family `OpcodeByte`: the first byte of a command's frame names that command (R50, R51). -/

namespace Sys2Proof.Laws.OpcodeByte

/-- R50, R51: byte 0 of the frame is the opcode. -/
def Statement (i : Instr) : Prop := opcodeOf ((encode i).headD 0) = some i.opcode

theorem configure (magic : BitVec 32) (mode : BitVec 8) (minBlockSize : BitVec 32) (packetSize repairCount : BitVec 16)
    (staticBlockSize : BitVec 32) (staticPacketSize : BitVec 16) :
    Statement (.configure magic mode minBlockSize packetSize repairCount staticBlockSize staticPacketSize) :=
  opcodeOf_code .configure

theorem stamp (fec : Bool) (payload : Bytes) : Statement (.stamp fec payload) := opcodeOf_code .stamp

theorem parse (bytes : Bytes) : Statement (.parse bytes) := opcodeOf_code .parse

theorem encPush (datagram : Bytes) : Statement (.encPush datagram) := opcodeOf_code .encPush

theorem encFlush : Statement .encFlush := opcodeOf_code .encFlush

theorem decFeed (coded : Bytes) : Statement (.decFeed coded) := opcodeOf_code .decFeed

theorem rxPacket (packet : Bytes) : Statement (.rxPacket packet) := opcodeOf_code .rxPacket

theorem inspect (id : BlockId) : Statement (.inspect id) := opcodeOf_code .inspect

end Sys2Proof.Laws.OpcodeByte
end

