-- ==== Sys2Proof/Laws/Response.lean ====
section
/-! SUPPORT. Response frames (R53, R94). -/

namespace Sys2Proof.Laws

open Sys2Proof.Machine

/-- R94: no two statuses share a code. -/
theorem statusCode_injective {a b : Status} (h : a.code = b.code) : a = b := by
  cases a <;> cases b <;> first | rfl | (exact absurd h (by decide))

/-- R53: the items of a response can be read back from its frame. -/
theorem itemFrames_injective :
    ∀ (a b : List Bytes) (ra rb : Bytes), a.length = b.length → (∀ x ∈ a, x.length < 2^32) →
    (∀ x ∈ b, x.length < 2^32) → a.flatMap itemFrame ++ ra = b.flatMap itemFrame ++ rb → a = b ∧ ra = rb := by
  intro a
  induction a with
  | nil => intro b ra rb hl _ _ h; cases b with
    | nil => simpa using h
    | cons => simp at hl
  | cons x a ih =>
    intro b ra rb hl ha hb h
    cases b with
    | nil => simp at hl
    | cons y b =>
      simp only [List.flatMap_cons, itemFrame, List.append_assoc] at h
      obtain ⟨h1, h2⟩ := List.append_inj h (by simp)
      have hxy : x.length = y.length := by
        have := congrArg unbe h1
        rwa [unbe_be_of_lt (by have := ha x (by simp); omega), unbe_be_of_lt
            (by have := hb y (by simp); omega)] at this
      obtain ⟨h3, h4⟩ := List.append_inj h2 hxy
      obtain ⟨h5, h6⟩ := ih b ra rb (by simpa using hl) (fun z hz => ha z (by simp [hz])) (fun z hz => hb z
          (by simp [hz])) h4
      exact ⟨by rw [h3, h5], h6⟩

end Sys2Proof.Laws
end

