-- ==== Sys2Proof/Laws/State.lean ====
section
/-! SUPPORT. One lemma per field and named update of State. -/

namespace Sys2Proof.Laws

open Sys2Proof.Machine

section
variable (s : State) (st : Status) (aux : Byte) (items : List Bytes) (enc : Encoder) (dec : Decoder) (n : Nat)
  (cfg : ConfigRegs)

@[simp] theorem finish_configured : (s.finish st aux items).configured = s.configured := rfl
@[simp] theorem finish_cfg : (s.finish st aux items).cfg = s.cfg := rfl
@[simp] theorem finish_enc : (s.finish st aux items).enc = s.enc := rfl
@[simp] theorem finish_dec : (s.finish st aux items).dec = s.dec := rfl
@[simp] theorem finish_params : (s.finish st aux items).params = s.params := rfl
@[simp] theorem finish_draws : (s.finish st aux items).draws = s.draws := rfl
@[simp] theorem finish_port : (s.finish st aux items).port = s.port := rfl
@[simp] theorem finish_response : (s.finish st aux items).response = some ⟨st, aux, items⟩ := rfl

@[simp] theorem raise_configured : (s.raise st aux).configured = s.configured := rfl
@[simp] theorem raise_cfg : (s.raise st aux).cfg = s.cfg := rfl
@[simp] theorem raise_enc : (s.raise st aux).enc = s.enc := rfl
@[simp] theorem raise_dec : (s.raise st aux).dec = s.dec := rfl
@[simp] theorem raise_params : (s.raise st aux).params = s.params := rfl
@[simp] theorem raise_draws : (s.raise st aux).draws = s.draws := rfl
@[simp] theorem raise_port : (s.raise st aux).port = s.port := rfl
@[simp] theorem raise_response : (s.raise st aux).response = some ⟨st, aux, []⟩ := rfl

@[simp] theorem withEnc_configured : (s.withEnc enc).configured = s.configured := rfl
@[simp] theorem withEnc_cfg : (s.withEnc enc).cfg = s.cfg := rfl
@[simp] theorem withEnc_enc : (s.withEnc enc).enc = enc := rfl
@[simp] theorem withEnc_dec : (s.withEnc enc).dec = s.dec := rfl
@[simp] theorem withEnc_params : (s.withEnc enc).params = s.params := rfl
@[simp] theorem withEnc_draws : (s.withEnc enc).draws = s.draws := rfl
@[simp] theorem withEnc_port : (s.withEnc enc).port = s.port := rfl
@[simp] theorem withEnc_response : (s.withEnc enc).response = s.response := rfl

@[simp] theorem withDec_configured : (s.withDec dec n).configured = s.configured := rfl
@[simp] theorem withDec_cfg : (s.withDec dec n).cfg = s.cfg := rfl
@[simp] theorem withDec_enc : (s.withDec dec n).enc = s.enc := rfl
@[simp] theorem withDec_dec : (s.withDec dec n).dec = dec := rfl
@[simp] theorem withDec_params : (s.withDec dec n).params = s.params := rfl
@[simp] theorem withDec_draws : (s.withDec dec n).draws = n := rfl
@[simp] theorem withDec_port : (s.withDec dec n).port = s.port := rfl
@[simp] theorem withDec_response : (s.withDec dec n).response = s.response := rfl

@[simp] theorem unconfigure_configured : s.unconfigure.configured = false := rfl
@[simp] theorem unconfigure_params : s.unconfigure.params = s.params := rfl
@[simp] theorem unconfigure_draws : s.unconfigure.draws = s.draws + 1 := rfl
@[simp] theorem unconfigure_port : s.unconfigure.port = s.port := rfl
@[simp] theorem unconfigure_response : s.unconfigure.response = s.response := rfl

@[simp] theorem powerOn_configured : s.powerOn.configured = false := rfl
@[simp] theorem powerOn_params : s.powerOn.params = s.params := rfl
@[simp] theorem powerOn_draws : s.powerOn.draws = s.draws + 1 := rfl
@[simp] theorem powerOn_port : s.powerOn.port = s.port := rfl
@[simp] theorem powerOn_response : s.powerOn.response = none := rfl

@[simp] theorem construct_configured : (s.construct cfg).configured = true := rfl
@[simp] theorem construct_cfg : (s.construct cfg).cfg = cfg := rfl
@[simp] theorem construct_enc : (s.construct cfg).enc = ⟨0, [], []⟩ := rfl
@[simp] theorem construct_dec : (s.construct cfg).dec = ⟨[], []⟩ := rfl
@[simp] theorem construct_params : (s.construct cfg).params = s.params := rfl
@[simp] theorem construct_draws : (s.construct cfg).draws = s.draws := rfl
@[simp] theorem construct_port : (s.construct cfg).port = s.port := rfl
@[simp] theorem construct_response : (s.construct cfg).response = s.response := rfl

/-- The CONFIGURED check has two outcomes, both a next state. -/
theorem ifConfigured_true {s t : State} (h : s.configured = true) : s.ifConfigured t = .next t := by
  simp [State.ifConfigured, h]

theorem ifConfigured_false {s t : State} (h : s.configured = false) :
    s.ifConfigured t = .next (s.raise .errUnconfigured 0) := by
  simp [State.ifConfigured, h]

theorem ifConfigured_next {s t u : State} (h : s.ifConfigured t = .next u) :
    (s.configured = true ∧ u = t) ∨ (s.configured = false ∧ u = s.raise .errUnconfigured 0) := by
  cases hc : s.configured with
  | true => rw [ifConfigured_true hc] at h; exact .inl ⟨rfl, by injection h with h; exact h.symm⟩
  | false => rw [ifConfigured_false hc] at h; exact .inr ⟨rfl, by injection h with h; exact h.symm⟩

end

end Sys2Proof.Laws
end

