-- ==== Sys2Proof/Laws/Step.lean ====
section
/-! SUPPORT. Steps and runs (R12, R38). -/

namespace Sys2Proof.Laws

open Sys2Proof.Machine Sys2Proof.Safety

/-- R12: a step whose event is a frame runs the frame. -/
theorem step_command {s : State} {f rest} (h : s.port = .command f :: rest) :
    step s = runFrame f { s with port := rest } := by
  simp [step, State.takeEvent, h, deliver]

theorem run_next {n : Nat} {s s' : State} (h : step s = .next s') :
    Sys2Proof.core.run (n + 1) s = Sys2Proof.core.run n s' := by
  have h : Sys2Proof.core.step s = .next s' := h
  simp only [Host.Core.run, h]

theorem run_refused {n : Nat} {s : State} {r : Refusal} (h : step s = .refused r) :
    Sys2Proof.core.run (n + 1) s = .refused r := by
  have h : Sys2Proof.core.step s = .refused r := h
  simp only [Host.Core.run, h]

/-- A run of `n + 1` steps is a run of `n` steps and one more. -/
theorem run_succ_last (n : Nat) (s : State) {t : State} (h : Sys2Proof.core.run n s = .next t) :
    Sys2Proof.core.run (n + 1) s = step t := by
  induction n generalizing s with
  | zero =>
    have h : s = t := by injection h
    subst h
    cases hs : step s with
    | next s' => rw [run_next hs]; rfl
    | fault r => cases r
    | refused r => exact run_refused hs
  | succ n ih =>
    cases hs : step s with
    | next s' => rw [run_next hs] at h ⊢; exact ih s' h
    | fault r => cases r
    | refused r => rw [run_refused hs] at h; cases h

/-- R29: the invariant reads no port, no response. -/
theorem blockInv_congr {s t : State} (h : BlockInv s) (h1 : t.configured = s.configured) (h2 : t.cfg = s.cfg)
    (h3 : t.enc = s.enc) (h4 : t.dec = s.dec) (h5 : t.params = s.params) (h6 : t.draws = s.draws) :
    BlockInv t := by
  unfold BlockInv at *; rw [h1, h2, h3, h4, h5, h6]; exact h

end Sys2Proof.Laws
end

