-- ==== Sys2Proof/Tests/Slice0.lean ====
section
/-! SUPPORT. Tests: the well-formedness smoke test, decoding of frames written out from R51, and the spec's own vectors
(95_test_vectors.md), one step each, with expected results copied from the spec, never from the model; and for each
obligation a concrete case that meets its hypotheses. -/

namespace Sys2Proof.Tests

open Sys2Proof.Machine Sys2Proof.Safety Sys2Proof.Laws

/-- The spec's configuration REF (95_test_vectors.md §1), just after its CONFIGURE. -/
def ref : State := State.reset.construct (configRegs Config.referenceParams 0x57464231 0x03 10 8 2 0 0)

/-- The spec's configuration STAT (V-ENC-14). -/
def stat : State := State.reset.construct (configRegs Config.referenceParams 0x57464231 0x01 1 8 1 16 8)

/-- The spec's configuration NONE (§3): FEC disabled. -/
def none' : State := State.reset.construct (configRegs Config.referenceParams 0x57464231 0x00 10 0 2 0 0)

/-- The state after one frame is presented. -/
def after (s : State) (frame : Bytes) : Option State :=
  match step (s.present frame) with
  | .next t => some t
  | .fault _ => none
  | .refused _ => none

/-- The response to one frame. -/
def answer (s : State) (frame : Bytes) : Option Response := (after s frame).bind (·.response)

/-- STATUS, AUX and the first items of a response. -/
def head (n : Nat) (r : Option Response) : Option (Status × Byte × Nat × List Bytes) :=
  r.map fun r => (r.status, r.aux, r.items.length, r.items.take n)

/-! ### Well-formedness: one ill-formed command for each check -/

/-- A byte string one byte too long for a 16-bit length. -/
def tooLong : Bytes := List.replicate 65536 0

theorem tooLong_length : 65535 < tooLong.length := by
  rw [tooLong, List.length_replicate]; omega

theorem illformed_of_too_long {b : Bytes} (h : 65535 < b.length) :
    (Instr.stamp true b).wellFormed = false ∧ (Instr.parse b).wellFormed = false ∧
    (Instr.encPush b).wellFormed = false ∧ (Instr.decFeed b).wellFormed = false ∧
    (Instr.rxPacket b).wellFormed = false := by
  have h' : ¬ b.length ≤ 65535 := by omega
  simp [Instr.wellFormed, h']

theorem test_illformed_stamp : (Instr.stamp true tooLong).wellFormed = false := (illformed_of_too_long tooLong_length).1

theorem test_illformed_parse : (Instr.parse tooLong).wellFormed = false := (illformed_of_too_long tooLong_length).2.1

theorem test_illformed_encPush : (Instr.encPush tooLong).wellFormed = false :=
  (illformed_of_too_long tooLong_length).2.2.1

theorem test_illformed_decFeed : (Instr.decFeed tooLong).wellFormed = false :=
  (illformed_of_too_long tooLong_length).2.2.2.1

theorem test_illformed_rxPacket : (Instr.rxPacket tooLong).wellFormed = false :=
  (illformed_of_too_long tooLong_length).2.2.2.2

/-! ### Decoding: frames written out from R51 -/

/-- R51, R90: CONFIGURE with a different byte in every field. -/
theorem test_decode_configure :
    decode [0x01, 0x11, 0x12, 0x13, 0x14, 0x03, 0x21, 0x22, 0x23, 0x24, 0x31, 0x32, 0x41, 0x42, 0x51, 0x52, 0x53, 0x54,
      0x61, 0x62] = .ok (.configure 0x11121314 0x03 0x21222324 0x3132 0x4142 0x51525354 0x6162) := by decide

theorem test_decode_stamp : decode [0x02, 0x00, 0x00, 0x02, 0x61, 0x62] = .ok (.stamp false [0x61, 0x62]) := by decide

theorem test_decode_parse : decode [0x03, 0x00, 0x02, 0x57, 0x46] = .ok (.parse [0x57, 0x46]) := by decide

theorem test_decode_encPush :
    decode [0x10, 0x00, 0x05, 0x48, 0x45, 0x4C, 0x4C, 0x4F] = .ok (.encPush [0x48, 0x45, 0x4C, 0x4C, 0x4F]) := by decide

theorem test_decode_encFlush : decode [0x11] = .ok .encFlush := by decide

theorem test_decode_decFeed : decode [0x20, 0x00, 0x03, 0x01, 0x02, 0x03] = .ok (.decFeed [0x01, 0x02, 0x03]) := by decide

theorem test_decode_rxPacket :
    decode [0x21, 0x00, 0x05, 0x57, 0x46, 0x42, 0x31, 0x00] = .ok (.rxPacket [0x57, 0x46, 0x42, 0x31, 0x00]) := by decide

theorem test_decode_inspect : decode [0x30, 0xFA] = .ok (.inspect 250) := by decide

/-- V-ILL-1 to V-ILL-12, each with its reason. -/
theorem test_illegal_frames :
    decode [] = .error .emptyFrame ∧ decode [0x00] = .error .unassignedOpcode ∧ decode [0x04] = .error .unassignedOpcode ∧
    decode [0xFF] = .error .unassignedOpcode ∧ decode [0x11, 0x00] = .error .wrongLength ∧
    decode [0x10, 0x00, 0x02, 0x61] = .error .wrongLength ∧ decode [0x10, 0x00] = .error .wrongLength ∧
    decode [0x30] = .error .wrongLength ∧ decode [0x30, 0x00, 0x00] = .error .wrongLength ∧
    decode [0x02, 0x02, 0x00, 0x01, 0x61] = .error .badStampFec ∧ decode [0x02, 0x00, 0x00] = .error .wrongLength ∧
    decode (0x01 :: List.replicate 18 0x00) = .error .wrongLength := by
  decide

/-- The opcode table numbers a frame from its first byte: STAMP plain "ab" (V-FRM-1). -/
theorem test_decode_table_word : decodeTableWord 48 0x626102000002 = some (.stamp false [0x61, 0x62]) := by decide

/-- The word of a row is the next frame the step runs, before what waits at the port. -/
theorem test_fetch_word : (ref.withFetchWord 8 0x11).port = [.command [0x11]] := by decide

/-! ### The assembler (R56, R57) -/

theorem test_assemble :
    assemble ".bytes p = x\"AA bb\" ; a name\nCONFIGURE magic=0x57464231, mode=FEC+DYN, min=10, pkt=8, repair=2, sblock=0, spkt=0\nSEND_NOW \"a;b\"\nRX p, \"z\"" =
    .ok [[0x01, 0x57, 0x46, 0x42, 0x31, 0x03, 0x00, 0x00, 0x00, 0x0A, 0x00, 0x08, 0x00, 0x02, 0x00, 0x00, 0x00, 0x00,
      0x00, 0x00], [0x10, 0x00, 0x03, 0x61, 0x3B, 0x62], [0x11], [0x21, 0x00, 0x02, 0xAA, 0xBB], [0x21, 0x00, 0x01, 0x7A]] := by
  decide +kernel

theorem test_assemble_refuses :
    assemble "INSPECT 256" = .error .badNumeral ∧ assemble "PARSE q" = .error .unboundName ∧
    assemble "STAMP x, \"a\"" = .error .badLine := by
  decide

/-! ### CONFIGURE and INSPECT -/

/-- V-CFG-1. -/
theorem test_configure_ref :
    (after State.reset [0x01, 0x57, 0x46, 0x42, 0x31, 0x03, 0x00, 0x00, 0x00, 0x0A, 0x00, 0x08, 0x00, 0x02, 0x00, 0x00,
      0x00, 0x00, 0x00, 0x00]).map (fun t => (t.response, t.configured, t.cfg.symT)) =
    some (some ⟨.ok, 0, []⟩, true, 8) := by decide

/-- V-CFG-8: k = 56404 is one above K_MAX. -/
theorem test_configure_kmax :
    (after ref [0x01, 0x57, 0x46, 0x42, 0x31, 0x01, 0x00, 0x00, 0x00, 0x0A, 0x00, 0x08, 0x00, 0x02, 0x00, 0x00, 0xDC, 0x54,
      0x00, 0x01]).map (fun t => (t.response, t.configured)) = some (some ⟨.cfgInvalid, 0, []⟩, false) := by
  decide

/-- V-INS-1. -/
theorem test_inspect_buffer :
    answer (ref.withEnc ⟨0, [0x61, 0x62, 0x63], [3]⟩) [0x30, 0x00] =
    some ⟨.ok, 0x00, [[0x00, 0x01, 0x00, 0x03, 0x00, 0x00, 0x00, 0x00, 0x00, 0x00, 0x00, 0x00, 0x00, 0x00]]⟩ := by
  decide

/-- The INSPECT 250 of program P3, after its first DEC_FEED. -/
theorem test_inspect_session :
    answer (ref.withDec ⟨[(250, ⟨15, 8, 2, [(0, zeros 8)]⟩)], []⟩ 0) [0x30, 0xFA] =
    some ⟨.ok, 0x01, [[0x00, 0x00, 0x00, 0x00, 0x01, 0x00, 0x00, 0x00, 0x00, 0x01, 0x00, 0x00, 0x00, 0x02]]⟩ := by
  decide

/-- V-UNC-1 and V-UNC-4: frame checks come before the CONFIGURED check. -/
theorem test_unconfigured :
    answer State.reset [0x30, 0x00] = some ⟨.errUnconfigured, 0, []⟩ ∧
    answer State.reset [0x04] = some ⟨.errIllegal, 0, []⟩ := by decide

/-! ### STAMP, PARSE and RX_PACKET -/

/-- V-FRM-1. -/
theorem test_stamp_plain :
    answer ref [0x02, 0x00, 0x00, 0x02, 0x61, 0x62] =
    some ⟨.ok, 0, [[0x57, 0x46, 0x42, 0x31, 0x00, 0x61, 0x62]]⟩ := by decide

/-- V-FRM-21: STAMP ignores FEC_EN. -/
theorem test_stamp_fec_disabled :
    answer none' [0x02, 0x01, 0x00, 0x02, 0x61, 0x62] =
    some ⟨.ok, 0, [[0x57, 0x46, 0x42, 0x31, 0x01, 0x61, 0x62]]⟩ := by decide

/-- V-FRM-9: the magic is checked before the flag. -/
theorem test_parse_foreign :
    answer ref [0x03, 0x00, 0x06, 0x57, 0x46, 0x42, 0x32, 0x02, 0x61] = some ⟨.dropForeign, 0, []⟩ := by decide

/-- V-FRM-10: AUX is the flag. -/
theorem test_parse_fec :
    answer ref [0x03, 0x00, 0x06, 0x57, 0x46, 0x42, 0x31, 0x01, 0xAA] = some ⟨.ok, 0x01, [[0xAA]]⟩ := by decide

/-- V-FRM-20: a plain packet is delivered with FEC disabled. -/
theorem test_rx_plain :
    answer none' [0x21, 0x00, 0x07, 0x57, 0x46, 0x42, 0x31, 0x00, 0x68, 0x69] = some ⟨.ok, 0, [[0x68, 0x69]]⟩ := by
  decide

/-- V-FRM-17: a 10-byte coded remainder is shorter than 16. -/
theorem test_rx_short :
    answer ref ([0x21, 0x00, 0x0F, 0x57, 0x46, 0x42, 0x31, 0x01] ++ List.replicate 10 0x00) =
    some ⟨.dropShort, 0, []⟩ := by decide

/-! ### ENC_PUSH and ENC_FLUSH -/

/-- V-ENC-1, the second push: four packets, of which the two source packets are written out. -/
theorem test_push_builds :
    head 2 (answer (ref.withEnc ⟨0, [0x48, 0x45, 0x4C, 0x4C, 0x4F], [5]⟩)
      [0x10, 0x00, 0x05, 0x57, 0x4F, 0x52, 0x4C, 0x44]) =
    some (.ok, 0x01, 4,
      [[0x57, 0x46, 0x42, 0x31, 0x01, 0x00, 0x00, 0x00, 0x00, 0x0F, 0x00, 0x00, 0x08, 0x01, 0x00, 0x01, 0x01, 0x00, 0x00,
        0x00, 0x00, 0x48, 0x45, 0x4C, 0x4C, 0x4F, 0x57, 0x4F, 0x52],
      [0x57, 0x46, 0x42, 0x31, 0x01, 0x00, 0x00, 0x00, 0x00, 0x0F, 0x00, 0x00, 0x08, 0x01, 0x00, 0x01, 0x01, 0x00, 0x00,
        0x00, 0x01, 0x4C, 0x44, 0x00, 0x05, 0x00, 0x0A, 0x02, 0x00]]) := by decide

/-- V-ENC-14: Static mode, with padding between the data and the directory and no DYN header. -/
theorem test_push_static :
    head 2 (answer stat [0x10, 0x00, 0x03, 0x61, 0x62, 0x63]) =
    some (.ok, 0x01, 3,
      [[0x57, 0x46, 0x42, 0x31, 0x01, 0x00, 0x00, 0x00, 0x00, 0x61, 0x62, 0x63, 0x00, 0x00, 0x00, 0x00, 0x00],
      [0x57, 0x46, 0x42, 0x31, 0x01, 0x00, 0x00, 0x00, 0x01, 0x00, 0x00, 0x00, 0x00, 0x00, 0x00, 0x03, 0x01]]) := by
  decide

/-- V-ENC-3: a forced flush, and ENC_ID 1 after it. -/
theorem test_flush :
    head 1 (answer (ref.withEnc ⟨0, [0x61, 0x62, 0x63], [3]⟩) [0x11]) =
    some (.ok, 0x01, 3,
      [[0x57, 0x46, 0x42, 0x31, 0x01, 0x00, 0x00, 0x00, 0x00, 0x06, 0x00, 0x00, 0x08, 0x01, 0x00, 0x01, 0x01, 0x00, 0x00,
        0x00, 0x00, 0x61, 0x62, 0x63, 0x00, 0x03, 0x01, 0x00, 0x00]]) ∧
    (after (ref.withEnc ⟨0, [0x61, 0x62, 0x63], [3]⟩) [0x11]).map (·.enc) = some ⟨1, [], []⟩ := by decide

/-- V-ENC-15: a Static block that does not fit is dropped, and ENC_ID stays 0. -/
theorem test_flush_oversize :
    (after ((State.reset.construct (configRegs Config.referenceParams 0x57464231 0x01 10 8 1 4 2)).withEnc
      ⟨0, [0x61, 0x62, 0x63, 0x64], [4]⟩) [0x11]).map (fun t => (t.response, t.enc)) =
    some (some ⟨.encOversize, 0, []⟩, ⟨0, [], []⟩) := by decide

/-! ### DEC_FEED -/

/-- V-DEC-12: a block of one source symbol decodes at once. -/
theorem test_feed_decodes :
    (after ref [0x20, 0x00, 0x18, 0x00, 0x00, 0x00, 0x00, 0x04, 0x00, 0x00, 0x08, 0x01, 0x00, 0x01, 0x01, 0x03, 0x00, 0x00,
      0x00, 0x5A, 0x00, 0x01, 0x01, 0x00, 0x00, 0x00, 0x00]).map (fun t => (t.response, t.dec)) =
    some (some ⟨.decoded, 0x03, [[0x5A]]⟩, ⟨[], [3]⟩) := by decide

/-- V-DEC-8 on a session that holds K symbols (R36, D37): another symbol of ESI 0 changes nothing and retries no decode. -/
theorem test_feed_repeated :
    (after (ref.withDec ⟨[(0, ⟨15, 8, 2, [(0, zeros 8), (1, zeros 8)]⟩)], []⟩ 3) ([0x20, 0x00, 0x18, 0x00, 0x00, 0x00, 0x00,
      0x0F, 0x00, 0x00, 0x08, 0x01, 0x00, 0x01, 0x01, 0x00, 0x00, 0x00, 0x00] ++ List.replicate 8 0x58)).map
      (fun t => (t.response, t.dec, t.draws)) =
    some (some ⟨.needMore, 0x00, []⟩, ⟨[(0, ⟨15, 8, 2, [(0, zeros 8), (1, zeros 8)]⟩)], []⟩, 3) := by decide +kernel

/-- V-EVI-4: the sweep centred on 0 keeps 193 and 63 and removes 192 and 64. -/
theorem test_feed_sweeps :
    (after (ref.withDec ⟨[], [63, 64, 192, 193]⟩ 0) ([0x20, 0x00, 0x18, 0x00, 0x00, 0x00, 0x00, 0x0F, 0x00, 0x00, 0x08, 0x01,
      0x00, 0x01, 0x01, 0x00, 0x00, 0x00, 0x00] ++ zeros 8)).map (fun t => (t.response, t.dec)) =
    some (some ⟨.needMore, 0x00, []⟩, ⟨[(0, ⟨15, 8, 2, [(0, zeros 8)]⟩)], [63, 193]⟩) := by decide +kernel

/-- V-DIR-1 to V-DIR-13. -/
theorem test_parse_directory :
    parseDir [] = none ∧ parseDir [0x00] = some [] ∧ parseDir [0x01] = none ∧ parseDir [0xFF] = none ∧
    parseDir [0x00, 0x00, 0x01] = some [[]] ∧ parseDir [0x00, 0x00, 0x02] = none ∧
    parseDir [0x61, 0x62, 0x00, 0x01, 0x00, 0x02, 0x02] = some [[0x61], [0x62]] ∧
    parseDir [0x61, 0x62, 0x00, 0x02, 0x00, 0x01, 0x02] = none ∧ parseDir [0x61, 0x00, 0x02, 0x01] = none ∧
    parseDir [0x61, 0x00, 0x00, 0x00, 0x01, 0x01] = some [[0x61]] ∧
    parseDir [0x61, 0x00, 0x00, 0x01, 0x00, 0x01, 0x02] = some [[0x61], []] := by decide

/-- The window table's rows for centres 0 and 250 (§6). -/
theorem test_windows :
    (inWindow 193 0 && inWindow 63 0 && !inWindow 192 0 && !inWindow 64 0 && inWindow 187 250 && inWindow 57 250 &&
      !inWindow 186 250 && !inWindow 58 250) = true := by decide

/-! ### Witnesses: for each obligation with hypotheses, a concrete state and operands that meet all of them -/

/-- A configured state with a buffered datagram, a live session and a decoded marker. -/
def busy : State :=
  (ref.withEnc ⟨7, [0x61, 0x62, 0x63], [3]⟩).withDec ⟨[(0, ⟨15, 8, 2, [(0, zeros 8)]⟩)], [5]⟩ 0

theorem busy_inv : BlockInv busy := by
  intro _
  refine ⟨⟨by decide, rfl, rfl, rfl⟩, ?_, by decide, by decide, ?_, 0, by decide⟩
  · unfold EncoderOk; decide
  · intro p hp
    have hp : p = (0, ⟨15, 8, 2, [(0, zeros 8)]⟩) := List.mem_singleton.1 hp
    subst hp
    exact ⟨by unfold SessionOk; decide, .inl (by decide), by decide⟩

theorem ref_inv : BlockInv ref := by
  intro _
  exact ⟨⟨by decide, rfl, rfl, rfl⟩, encoderOk_empty _ _, decoderOk_empty _ _⟩

theorem stat_inv : BlockInv stat := by
  intro _
  exact ⟨⟨by decide, rfl, rfl, rfl⟩, encoderOk_empty _ _, decoderOk_empty _ _⟩

/-- The coded remainder `M(F, T, id, e, sym)` of 95_test_vectors.md §8. -/
def coded (F T : Nat) (id : Byte) (e : Nat) (sym : Bytes) : Bytes :=
  be 5 F ++ [0x00] ++ be 2 T ++ [0x01, 0x00, 0x01, 0x01] ++ [id] ++ be 3 e ++ sym

/-- A byte string of the greatest length a frame can hold. -/
def longest : Bytes := List.replicate 65535 0

theorem wellFormed_of_length {b : Bytes} (h : b.length ≤ 65535) : (Instr.stamp true b).wellFormed = true := by
  simp [Instr.wellFormed, h]

theorem witness_DecodeInvertsEncode : (Instr.stamp true longest).wellFormed = true :=
  wellFormed_of_length (by rw [longest, List.length_replicate])

theorem witness_EncodeInvertsDecode : decode [0x10, 0x00, 0x00] = .ok (.encPush []) := by decide

theorem witness_IllegalFramesHaveNoEffect :
    (busy.present []).port = [.command []] ∧ IllegalFrame [] ∧ IllegalFrame [0x10, 0x00, 0x02, 0x61] ∧
    (∃ i, decode [0x11] = .ok i) ∧
    ([0x01, 0, 0, 0, 0, 4, 0, 0, 0, 0, 0, 0, 0, 0, 0, 0, 0, 0, 0, 0] : Bytes).head? = some 0x01 ∧
    4 ≤ (([0x01, 0, 0, 0, 0, 4, 0, 0, 0, 0, 0, 0, 0, 0, 0, 0, 0, 0, 0, 0] : Bytes).getD 5 0).toNat :=
  ⟨rfl, .inl rfl, .inr (.inr (.inr (.inr (.inl (by decide))))), ⟨_, rfl⟩, by decide, by decide⟩

theorem witness_not_illegal : ¬ IllegalFrame [0x11] := by
  simp [IllegalFrame]

theorem witness_ResponseFrameUnambiguous :
    (Response.mk .ok 0 [[0x01]]).items.length < 2 ^ 32 ∧ ∀ x ∈ (Response.mk .ok 0 [[0x01]]).items, x.length < 2 ^ 32 := by
  decide

theorem witness_AssembledFramesAreLegal :
    assemble "ENC_FLUSH" = .ok [[0x11]] ∧ bytesOperand [("p", [0xAA])] (.word "p") = .ok [0xAA] ∧
    asmCommand [("p", [0xAA])] "RX" [.literal []] = .ok [.rxPacket []] := by decide +kernel

theorem witness_StepRunsDecodedCommand :
    (busy.present [0x11]).port = .command [0x11] :: [] ∧ decode [0x11] = .ok .encFlush := by decide

theorem witness_StepOfOtherEvents :
    ({ busy with port := [.powerOn] } : State).port = .powerOn :: [] ∧
    ({ busy with port := [.simultaneous [] [0x11]] } : State).port = .simultaneous [] [0x11] :: [] ∧ busy.port = [] := by
  decide

theorem witness_StatusesOfEachCommand :
    exec .encFlush State.reset = .next { State.reset with response := some ⟨.errUnconfigured, 0, []⟩ } ∧
    exec .encFlush ref = .next { ref with response := some ⟨.ok, 0, []⟩ } := ⟨rfl, rfl⟩

theorem witness_DropsChangeNothing :
    exec (.parse []) busy = .next { busy with response := some ⟨.dropShort, 0, []⟩ } ∧
    Status.dropShort.isDrop = true := ⟨rfl, rfl⟩

theorem witness_UnconfiguredRefusesCommands :
    State.reset.configured = false ∧ (Instr.parse []).opcode ≠ .configure := by decide

theorem witness_UnspecifiedStateIsNeverRead : State.reset.configured = false := rfl

theorem witness_StepKeepsInvariant : BlockInv busy ∧ ∃ t, step (busy.present [0x11]) = .next t :=
  ⟨busy_inv, _, rfl⟩

theorem witness_StorageBounds : BlockInv busy ∧ busy.configured = true := ⟨busy_inv, rfl⟩

/-- Dynamic at PACKET_SIZE one above SYMBOL_OVERHEAD, Static at `k = K_MAX` exactly, FEC disabled. -/
theorem witness_ConfigureAccepts :
    ((0x03 : BitVec 8).toNat < 4 ∧ busy.params.symbolOverhead < (1 : BitVec 16).toNat) ∧
    ((0x01 : BitVec 8).toNat < 4 ∧ (0x01 : BitVec 8).getLsbD 1 = false ∧ 1 ≤ (56403 : BitVec 32).toNat ∧
      1 ≤ (1 : BitVec 16).toNat ∧ (56403 : BitVec 32).toNat ≤ busy.params.kMax * (1 : BitVec 16).toNat) ∧
    (0x00 : BitVec 8).getLsbD 0 = false := by decide

theorem witness_ConfigureRejects :
    4 ≤ (0x04 : BitVec 8).toNat ∧
    ((0x03 : BitVec 8).getLsbD 0 = true ∧ (0x03 : BitVec 8).getLsbD 1 = true ∧
      (0 : BitVec 16).toNat ≤ busy.params.symbolOverhead) ∧
    ((0x01 : BitVec 8).getLsbD 0 = true ∧ (0x01 : BitVec 8).getLsbD 1 = false ∧ (0 : BitVec 32).toNat = 0 ∧
      busy.params.kMax * (1 : BitVec 16).toNat < (56404 : BitVec 32).toNat) := by decide

theorem witness_OnlyConfigureWritesConfiguration :
    Instr.encFlush.opcode ≠ .configure ∧ ∃ t, exec .encFlush busy = .next t := ⟨by decide, _, rfl⟩

theorem witness_InspectSummary :
    busy.configured = true ∧ storeGet 0 busy.dec.sess = some ⟨15, 8, 2, [(0, zeros 8)]⟩ ∧
    storeGet 5 busy.dec.sess = none := by decide

theorem witness_InspectIsExact : busy.configured = true ∧ BlockInv busy := ⟨rfl, busy_inv⟩

theorem witness_StampPrependsHeader : busy.configured = true ∧ BlockInv busy := ⟨rfl, busy_inv⟩

/-- A packet for each check of PARSE, all against MAGIC 0x57464231; the shortest that passes the length check among them. -/
theorem witness_ParseOutcomes :
    busy.configured = true ∧ ([0x57, 0x46, 0x42, 0x31] : Bytes).length < 5 ∧
    (5 ≤ ([0, 0, 0, 0, 0] : Bytes).length ∧ unbe (slice [0, 0, 0, 0, 0] 0 4) ≠ busy.cfg.magic.toNat) ∧
    (∀ f ∈ ([0x00, 0x01, 0x02] : Bytes), unbe (slice [0x57, 0x46, 0x42, 0x31, f] 0 4) = busy.cfg.magic.toNat ∧
      ([0x57, 0x46, 0x42, 0x31, f] : Bytes).getD 4 0 = f) := by decide

theorem witness_RxPacketOutcomes :
    busy.configured = true ∧ busy.cfg.mode.getLsbD 0 = true ∧ none'.configured = true ∧
    none'.cfg.mode.getLsbD 0 = false ∧
    (∀ f ∈ ([0x00, 0x01, 0x02] : Bytes), unbe (slice [0x57, 0x46, 0x42, 0x31, f] 0 4) = none'.cfg.magic.toNat) := by
  decide

theorem witness_FramingRoundTrip :
    BlockInv busy ∧ busy.configured = true ∧ ([] : Bytes).length ≤ 65535 := ⟨busy_inv, rfl, by decide⟩

theorem witness_MagicFiltering :
    busy.configured = true ∧ unbe (slice [0x57, 0x46, 0x42, 0x32, 0x01] 0 4) ≠ busy.cfg.magic.toNat := by decide

theorem witness_ReadersChangeNothing :
    (Instr.inspect 0).opcode ∈ [Opcode.stamp, .parse, .inspect] ∧ ∃ t, exec (.inspect 0) busy = .next t :=
  ⟨by decide, _, rfl⟩

theorem witness_PushWithFecDisabled : none'.configured = true ∧ none'.cfg.mode.getLsbD 0 = false := by decide

theorem witness_PushSequence :
    busy.configured = true ∧ busy.cfg.mode.getLsbD 0 = true ∧ ([] : Bytes).length ≤ 65535 := by decide

/-- The buffer of V-ENC-3: F = 6, T = 8, k = 1, r = 2. -/
theorem witness_FlushBuildsDynamicBlock :
    busy.configured = true ∧ busy.cfg.mode.getLsbD 0 = true ∧ busy.cfg.mode.getLsbD 1 = true ∧ busy.enc.accOffs ≠ [] ∧
    [0x61, 0x62, 0x63, 0x00, 0x03, 0x01] = busy.enc.accData ++ busy.enc.accOffs.flatMap (fun o => be 2 o.toNat) ++
      [BitVec.ofNat 8 busy.enc.accOffs.length] ∧
    8 = busy.cfg.symT.toNat ∧ 2 = busy.cfg.repairCount.toNat ∧ (1 - 1) * 8 < 6 ∧ 6 ≤ 1 * 8 ∧ 1 ≤ busy.params.kMax ∧
    1 + 2 ≤ busy.params.esiLimit := by decide

/-- The buffer of V-ENC-14: F = 16, T = 8, k = 2, r = 1, ten bytes of padding. -/
theorem witness_FlushBuildsStaticBlock :
    let s := stat.withEnc ⟨0, [0x61, 0x62, 0x63], [3]⟩
    s.configured = true ∧ s.cfg.mode.getLsbD 0 = true ∧ s.cfg.mode.getLsbD 1 = false ∧ s.enc.accOffs ≠ [] ∧
    s.enc.accData.length + 10 + (2 * s.enc.accOffs.length + 1) = s.cfg.staticBlockSize.toNat ∧
    [0x61, 0x62, 0x63] ++ zeros 10 ++ [0x00, 0x03, 0x01] = s.enc.accData ++ zeros 10 ++
      s.enc.accOffs.flatMap (fun o => be 2 o.toNat) ++ [BitVec.ofNat 8 s.enc.accOffs.length] ∧
    8 = s.cfg.symT.toNat ∧ 1 = s.cfg.repairCount.toNat ∧ (2 - 1) * 8 < 16 ∧ 16 ≤ 2 * 8 ∧ 2 ≤ s.params.kMax ∧
    2 + 1 ≤ s.params.esiLimit := by decide

/-- A Static block one byte too small, K_MAX exceeded by one, and ESI_LIMIT exceeded by one. -/
theorem witness_FlushDropsOversizeBlock :
    (let s := (State.reset.construct (configRegs Config.referenceParams 0 0x01 10 8 1 5 5)).withEnc ⟨0, [1, 2, 3], [3]⟩;
      s.configured = true ∧ s.cfg.mode.getLsbD 0 = true ∧ s.cfg.mode.getLsbD 1 = false ∧ s.enc.accOffs ≠ [] ∧
      1 ≤ s.cfg.symT.toNat ∧ 5 = s.cfg.staticBlockSize.toNat ∧ (1 - 1) * s.cfg.symT.toNat < 5 ∧
      5 ≤ 1 * s.cfg.symT.toNat ∧ 5 < s.enc.accData.length + 2 * s.enc.accOffs.length + 1) ∧
    (let s := { busy with params := { kMax := 0, esiLimit := 2, symbolOverhead := 0 } };
      s.configured = true ∧ s.cfg.mode.getLsbD 0 = true ∧ s.cfg.mode.getLsbD 1 = true ∧ s.enc.accOffs ≠ [] ∧
      6 = s.enc.accData.length + 2 * s.enc.accOffs.length + 1 ∧ (1 - 1) * s.cfg.symT.toNat < 6 ∧
      6 ≤ 1 * s.cfg.symT.toNat ∧ s.params.kMax < 1 ∧ s.params.esiLimit < 1 + s.cfg.repairCount.toNat) := by decide

theorem witness_FlushOfNothing :
    (none'.configured = true ∧ none'.cfg.mode.getLsbD 0 = false) ∧ ref.configured = true ∧ ref.enc.accOffs = [] := by
  decide

theorem witness_EncIdCountsBuiltBlocks :
    Instr.encFlush.opcode ∈ [Opcode.encPush, .encFlush] ∧
    ∃ t r, exec .encFlush busy = .next t ∧ t.response = some r ∧ r.aux = 1 :=
  ⟨by decide, _, _, rfl, rfl, by decide⟩

theorem witness_PacketsHaveOneLength :
    BlockInv busy ∧ busy.configured = true ∧ busy.cfg.mode.getLsbD 0 = true ∧
    ∃ t r x, exec .encFlush busy = .next t ∧ t.response = some r ∧ x ∈ r.items :=
  ⟨busy_inv, rfl, by decide, _, _, _, rfl, rfl, List.mem_cons_self⟩

theorem witness_EncoderCommandsFrame :
    (Instr.encPush []).opcode ∈ [Opcode.encPush, .encFlush] ∧ ∃ t, exec (.encPush []) busy = .next t :=
  ⟨by decide, _, rfl⟩

theorem witness_EncoderIgnoresDecoder : (Instr.encPush []).opcode ∈ [Opcode.encPush, .encFlush] := by decide

/-- A block of two symbols of eight bytes: both source symbols, which belong to one payload only; and one source and one
repair symbol, on which law 2 can be met. -/
theorem witness_CodeLaws :
    let P := zeros 16
    let p := Config.referenceParams
    (1 ≤ 8 ∧ 8 ≤ 65535 ∧ 1 ≤ 2 ∧ 2 ≤ p.kMax ∧ P.length = 2 * 8 ∧ (2 - 1) * 8 < 15 ∧ 15 ≤ 2 * 8 ∧ 0 < 2 ∧ 0 < p.esiLimit) ∧
    (let M : Store 24 Bytes := [(0, zeros 8), (1, zeros 8)];
      storeWf M ∧ 2 ≤ M.length ∧
      (∀ q ∈ M, q.1.toNat < p.esiLimit ∧ q.2 = codeSym p P 8 2 q.1.toNat ∧ q.2.length = 8) ∧
      codeDecode p 0 15 8 2 M = some (zeros 15) ∧
      ∀ Q : Bytes, Q.length = 2 * 8 → (∀ q ∈ M, q.2 = codeSym p Q 8 2 q.1.toNat) → Q.take 15 = P.take 15) ∧
    (let M : Store 24 Bytes := [(1, zeros 8), (2, codeSym p P 8 2 2)];
      storeWf M ∧ 2 ≤ M.length ∧ (∀ q ∈ M, q.1.toNat < p.esiLimit ∧ q.2 = codeSym p P 8 2 q.1.toNat) ∧
      3 ≤ p.esiLimit ∧ LawTwoPossible 8 2 3 ∧ ∀ q ∈ M, q.1.toNat < 3) := by
  refine ⟨by decide, ⟨by decide, by decide, by decide, by decide, fun Q hQ hg => ?_⟩,
    by decide, by simp, fun q hq => ?_, by decide, lawTwoPossible_of_le (by decide) (by decide), fun q hq => ?_⟩
  · have hP := sourcePayload_genuine (params := Config.referenceParams) (T := 8) (k := 2) hQ (by decide) hg
    rw [← hP]
    decide
  · simp only [List.mem_cons, List.not_mem_nil, or_false] at hq
    rcases hq with rfl | rfl
    · decide
    · exact ⟨by decide, rfl⟩
  · simp only [List.mem_cons, List.not_mem_nil, or_false] at hq
    rcases hq with rfl | rfl <;> decide

theorem witness_CodedRemainderLayout :
    busy.cfg.mode.getLsbD 1 = true ∧ stat.cfg.mode.getLsbD 1 = false ∧ 2 ^ 40 - 1 < 2 ^ 40 ∧ 2 ^ 24 - 1 < 2 ^ 24 ∧
    codedFields busy.cfg (zeros 15) = none ∧ codedFields busy.cfg (zeros 16) ≠ none ∧
    codedFields stat.cfg (zeros 3) = none ∧ codedFields stat.cfg (zeros 4) ≠ none := by decide

theorem witness_FeedDropsInOrder :
    (none'.configured = true ∧ none'.cfg.mode.getLsbD 0 = false) ∧
    (busy.configured = true ∧ busy.cfg.mode.getLsbD 0 = true ∧ codedFields busy.cfg (zeros 15) = none) ∧
    (∀ FT ∈ [(15, 0), (0, 8), (56404, 1)],
      codedFields busy.cfg (coded FT.1 FT.2 9 0 [0x61]) = some ⟨FT.1, FT.2, 9, 0, [0x61]⟩ ∧
      (9 : BlockId) ∉ busy.dec.decoded ∧ storeGet 9 busy.dec.sess = none ∧
      (FT.2 = 0 ∨ FT.1 = 0 ∨ busy.params.kMax * FT.2 < FT.1)) := by decide

theorem witness_DecodedBlocksAreDeduplicated :
    busy.configured = true ∧ busy.cfg.mode.getLsbD 0 = true ∧
    codedFields busy.cfg (coded 15 0 5 0 []) = some ⟨15, 0, 5, 0, []⟩ ∧ (5 : BlockId) ∈ busy.dec.decoded := by decide

/-- ESI_LIMIT 4 and ESI 4, and the reference limit. -/
theorem witness_EsiOutOfRangeIsDropped :
    (let s := { busy with params := { kMax := 56403, esiLimit := 4, symbolOverhead := 0 } };
      s.configured = true ∧ s.cfg.mode.getLsbD 0 = true ∧
      codedFields s.cfg (coded 15 8 0 4 (zeros 8)) = some ⟨15, 8, 0, 4, zeros 8⟩ ∧ (0 : BlockId) ∉ s.dec.decoded ∧
      sessionFor s.params s.dec ⟨15, 8, 0, 4, zeros 8⟩ = some ⟨15, 8, 2, [(0, zeros 8)]⟩ ∧
      s.params.esiLimit ≤ (4 : Esi).toNat) ∧
    busy.params.esiLimit = 2 ^ 24 ∧
    ∃ t r, exec (.decFeed (coded 15 8 0 16777215 (zeros 7))) busy = .next t ∧ t.response = some r :=
  ⟨by decide, by decide, _, _, rfl, rfl⟩

theorem witness_WrongSymbolLengthIsDropped :
    codedFields busy.cfg (coded 15 8 9 0 (zeros 7)) = some ⟨15, 8, 9, 0, zeros 7⟩ ∧ (9 : BlockId) ∉ busy.dec.decoded ∧
    sessionFor busy.params busy.dec ⟨15, 8, 9, 0, zeros 7⟩ = some ⟨15, 8, 2, []⟩ ∧
    (0 : Esi).toNat < busy.params.esiLimit ∧ (zeros 7).length ≠ 8 := by decide

/-- A live session, the three refused parameter pairs, and the largest block a session may have. -/
theorem witness_SessionParameters :
    storeGet 0 busy.dec.sess = some ⟨15, 8, 2, [(0, zeros 8)]⟩ ∧ storeGet 9 busy.dec.sess = none ∧
    busy.params.kMax * 1 < 56404 ∧ 56403 ≤ busy.params.kMax * 1 := by decide

/-- The first symbol of a block of two, and a repeated one. -/
theorem witness_FeedNeedsMore :
    busy.configured = true ∧ busy.cfg.mode.getLsbD 0 = true ∧
    codedFields busy.cfg (coded 15 8 9 1 (zeros 8)) = some ⟨15, 8, 9, 1, zeros 8⟩ ∧ (9 : BlockId) ∉ busy.dec.decoded ∧
    sessionFor busy.params busy.dec ⟨15, 8, 9, 1, zeros 8⟩ = some ⟨15, 8, 2, []⟩ ∧
    (1 : Esi).toNat < busy.params.esiLimit ∧ storeGet (1 : Esi) ([] : Store 24 Bytes) = none ∧
    (storePut (1 : Esi) (zeros 8) []).length < 2 ∧
    codedFields busy.cfg (coded 15 8 0 0 (zeros 8)) = some ⟨15, 8, 0, 0, zeros 8⟩ ∧ (0 : BlockId) ∉ busy.dec.decoded ∧
    sessionFor busy.params busy.dec ⟨15, 8, 0, 0, zeros 8⟩ = some ⟨15, 8, 2, [(0, zeros 8)]⟩ ∧
    (storeGet (0 : Esi) ([(0, zeros 8)] : Store 24 Bytes)).isSome = true := by decide

/-- The second symbol of the live session 0. -/
theorem witness_FeedDecodes :
    busy.configured = true ∧ busy.cfg.mode.getLsbD 0 = true ∧
    codedFields busy.cfg (coded 15 8 0 1 (zeros 8)) = some ⟨15, 8, 0, 1, zeros 8⟩ ∧ (0 : BlockId) ∉ busy.dec.decoded ∧
    sessionFor busy.params busy.dec ⟨15, 8, 0, 1, zeros 8⟩ = some ⟨15, 8, 2, [(0, zeros 8)]⟩ ∧
    (1 : Esi).toNat < busy.params.esiLimit ∧ storeGet (1 : Esi) ([(0, zeros 8)] : Store 24 Bytes) = none ∧
    2 ≤ (storePut (1 : Esi) (zeros 8) [(0, zeros 8)]).length := by decide

theorem witness_LiveSessionIgnoresHeader :
    (zeros 12).length = 12 ∧ 4 ≤ ([0x00, 0x00, 0x00, 0x01] : Bytes).length ∧ busy.cfg.mode.getLsbD 1 = true ∧
    ([0x00, 0x00, 0x00, 0x01] : Bytes).head? = some 0 ∧
    storeGet 0 busy.dec.sess = some ⟨15, 8, 2, [(0, zeros 8)]⟩ := by decide

theorem witness_IgnoredHeaderBytes :
    (be 5 15).length = 5 ∧ (be 2 8).length = 2 ∧ busy.cfg.mode.getLsbD 1 = true := by decide

theorem witness_NeverDecodesEarly :
    busy.configured = true ∧
    (codedFields busy.cfg (coded 15 8 9 1 (zeros 8)) = some ⟨15, 8, 9, 1, zeros 8⟩ ∧
      sessionFor busy.params busy.dec ⟨15, 8, 9, 1, zeros 8⟩ = some ⟨15, 8, 2, []⟩ ∧ 0 + 1 < 2) ∧
    (sessionFor busy.params busy.dec ⟨15, 8, 0, 0, zeros 8⟩ = some ⟨15, 8, 2, [(0, zeros 8)]⟩ ∧
      (storeGet (0 : Esi) ([(0, zeros 8)] : Store 24 Bytes)).isSome = true) := by decide

theorem witness_DecoderCommandsFrame :
    (Instr.rxPacket []).opcode ∈ [Opcode.decFeed, .rxPacket] ∧ ∃ t, exec (.rxPacket []) busy = .next t :=
  ⟨by decide, _, rfl⟩

theorem witness_DecoderIgnoresEncoder : (Instr.rxPacket []).opcode ∈ [Opcode.decFeed, .rxPacket] := by decide

theorem witness_DirectoryRoundTrip :
    ([[0x61], [], [0x62, 0x62]] : List Bytes).length ≤ 255 ∧
    ([[0x61], [], [0x62, 0x62]] : List Bytes).flatten.length ≤ 65535 := by decide

theorem witness_DirectoryParserChecks :
    ([0x61] : Bytes).length < 2 * (0x01 : Byte).toNat ∧ [1, 3].length = (0x02 : Byte).toNat ∧
    (∀ o ∈ [1, 3], o < 2 ^ 16) ∧
    parseDir ([0x61, 0x62, 0x62] ++ [1, 3].flatMap (be 2) ++ [0x02]) = some [[0x61], [0x62, 0x62]] := by decide

theorem witness_AcceptedFeedSweeps :
    ∃ t r, exec (.decFeed (coded 15 8 9 1 (zeros 8))) busy = .next t ∧ t.response = some r ∧ r.status.isDrop = false :=
  ⟨_, _, rfl, rfl, by decide⟩

/-- An accepted packet 63, 64, 192 and 193 identifiers after block 0. -/
theorem witness_EvictionTiming (j : Nat) (hj : j ∈ [63, 64, 192, 193]) :
    1 ≤ j ∧ j ≤ 255 ∧ ∃ t r, exec (.decFeed (coded 15 8 (BitVec.ofNat 8 j) 1 (zeros 8))) busy = .next t ∧
      t.response = some r ∧ r.status.isDrop = false ∧ r.aux = 0 + BitVec.ofNat 8 j := by
  simp only [List.mem_cons, List.not_mem_nil, or_false] at hj
  rcases hj with rfl | rfl | rfl | rfl <;> exact ⟨by decide, by decide, _, _, rfl, rfl, by decide, by decide⟩

/-- W8 (V-ENC-1): "HELLO" is buffered in configuration REF, and the ENC_PUSH of "WORLD" closes the block. Its two repair
packets are given in the order 3, 2 to a receiver in configuration REF. -/
theorem witness_RoundTripUnderLoss :
    let hello : Bytes := [0x48, 0x45, 0x4C, 0x4C, 0x4F]
    let world : Bytes := [0x57, 0x4F, 0x52, 0x4C, 0x44]
    let enc := [hello, world].foldl Encoder.append { id := 0, accData := [], accOffs := [] }
    ∃ t packets enc', ConfigOk ref.params ref.cfg ∧ ref.cfg.mode.getLsbD 0 = true ∧
      exec (.encPush world) (ref.withEnc ⟨0, hello, [5]⟩) = .next t ∧ t.response = some ⟨.ok, 1, packets⟩ ∧
      buildBlock ref.cfg ref.params enc = ⟨.built, packets, enc'⟩ ∧
      packets.length = 2 + ref.cfg.repairCount.toNat ∧ (∀ p ∈ packets, p.length ≤ 65535) ∧
      BlockInv ref ∧ ref.configured = true ∧ ref.params.wf ∧ storeGet 0 ref.dec.sess = none ∧ 0 ∉ ref.dec.decoded ∧
      [3, 2].Nodup ∧ (∀ e ∈ [3, 2], e < packets.length) ∧
      4 ≤ packets.length ∧ LawTwoPossible ref.cfg.symT.toNat 2 4 ∧ ∀ e ∈ [3, 2], e < 4 := by
  refine ⟨_, (buildBlock ref.cfg ref.params ⟨0, [0x48, 0x45, 0x4C, 0x4C, 0x4F, 0x57, 0x4F, 0x52, 0x4C, 0x44], [5, 10]⟩).packets,
    ⟨1, [], []⟩, (ref_inv rfl).1, by decide, rfl, rfl, rfl, by decide, fun p hp => ?_, ref_inv, rfl, by decide, rfl, by decide,
    by decide, by decide, by decide, lawTwoPossible_of_le (by decide) (by decide), by decide⟩
  have h := buildBlock_packet_length (ref_inv rfl).1 rfl p hp
  have h2 : 5 + (if ref.cfg.mode.getLsbD 1 then 12 else 0) + 4 + ref.cfg.symT.toNat = 29 := by decide
  omega

/-- Assumption 5, at the corners: law 2 can be met with one repair symbol for every `T` and `k`, and the code then has it. -/
theorem test_one_lost_symbol (p : Params) (n F k : Nat) (M : Store 24 Bytes) (P : Bytes) (hr : p.inRange 1 k)
    (hF1 : k - 1 < F) (hF2 : F ≤ k) (hP : P.length = k) (hwf : storeWf M) (hlen : k ≤ M.length) (hk : k + 1 ≤ p.esiLimit)
    (hesi : ∀ q ∈ M, q.1.toNat < k + 1) (hgen : ∀ q ∈ M, q.2 = codeSym p P 1 k q.1.toNat) :
    codeDecode p n F 1 k M = some (P.take F) :=
  codeDecode_genuine hr (by omega) (by omega) (by omega) hwf hlen hk hesi hgen (.inl (lawTwoPossible_parity 1 k))

end Sys2Proof.Tests
end

section
/-! SUPPORT. Illegal frames (R52, R96): the decoder refuses exactly the frames of R52's list, and a step on a refused frame
answers ERR_ILLEGAL and does nothing else. -/

namespace Sys2Proof.Laws

open Sys2Proof.Machine Sys2Proof.Safety

/-- R9: a one-byte operand inside the frame is that byte. -/
theorem operand_byte {f : Bytes} {i : Nat} (h : i < f.length) : operand 8 f i (i + 1) = f.getD i 0 := by
  have hs : slice f i (i + 1) = [f[i]] := by
    rw [slice, Nat.add_sub_cancel_left, List.drop_eq_getElem_cons h, List.take_succ_cons, List.take_zero]
  rw [operand, hs, List.getD_eq_getElem f 0 h, unbe_cons]
  simp

/-! ### R52's list, opcode by opcode -/

theorem illegalFrame_nil : IllegalFrame [] := .inl rfl

theorem illegalFrame_of_unassigned {b : Byte} (h : opcodeOf b = none) (rest : Bytes) : IllegalFrame (b :: rest) :=
  .inr (.inl ⟨b, rest, rfl, opcodeOf_eq_none_iff.1 h⟩)

theorem illegalFrame_configure (rest : Bytes) :
    IllegalFrame (Opcode.configure.code :: rest) ↔ ¬ (Opcode.configure.code :: rest).length = 20 := by
  simp [IllegalFrame, Opcode.code]

theorem illegalFrame_stamp (rest : Bytes) :
    IllegalFrame (Opcode.stamp.code :: rest) ↔ tailOperand (Opcode.stamp.code :: rest) 2 = none ∨
      ((Opcode.stamp.code :: rest).getD 1 0 ≠ 0x00 ∧ (Opcode.stamp.code :: rest).getD 1 0 ≠ 0x01) := by
  simp [IllegalFrame, Opcode.code, tailOperand_eq_none_iff]

theorem illegalFrame_encFlush (rest : Bytes) :
    IllegalFrame (Opcode.encFlush.code :: rest) ↔ ¬ (Opcode.encFlush.code :: rest).length = 1 := by
  simp [IllegalFrame, Opcode.code]

theorem illegalFrame_inspect (rest : Bytes) :
    IllegalFrame (Opcode.inspect.code :: rest) ↔ ¬ (Opcode.inspect.code :: rest).length = 2 := by
  simp [IllegalFrame, Opcode.code]

/-- The four commands whose one operand is the variable-length one. -/
theorem illegalFrame_tail {op : Opcode} (h : op ∈ [Opcode.parse, .encPush, .decFeed, .rxPacket]) (rest : Bytes) :
    IllegalFrame (op.code :: rest) ↔ tailOperand (op.code :: rest) 1 = none := by
  simp only [List.mem_cons, List.not_mem_nil, or_false] at h
  rcases h with rfl | rfl | rfl | rfl <;> simp [IllegalFrame, Opcode.code, tailOperand_eq_none_iff]

/-! ### The decoder's side -/

/-- A result of the decoder is right about a frame that is illegal exactly when `bad` holds: an error then, and a
well-formed command otherwise. -/
def Settles (bad : Prop) (r : Except Illegal Instr) : Prop :=
  (bad → ∃ e, r = .error e) ∧ (¬ bad → ∃ i, r = .ok i ∧ i.wellFormed = true)

theorem settles_error {bad : Prop} (h : bad) (e : Illegal) : Settles bad (.error e) :=
  ⟨fun _ => ⟨e, rfl⟩, fun hn => absurd h hn⟩

theorem settles_ok {bad : Prop} (h : ¬ bad) {i : Instr} (hi : i.wellFormed = true) : Settles bad (.ok i) :=
  ⟨fun hb => absurd hb h, fun _ => ⟨i, rfl, hi⟩⟩

/-- A frame of one fixed length. -/
theorem settles_length {f : Bytes} {n : Nat} {i : Instr} (hi : i.wellFormed = true) :
    Settles (¬ f.length = n) (if f.length = n then .ok i else .error .wrongLength) := by
  split
  · next h => exact settles_ok (not_not_intro h) hi
  · next h => exact settles_error h _

theorem tailCommand_settles {mk : Bytes → Instr} (hmk : ∀ b, (mk b).wellFormed = decide (b.length ≤ 65535)) (f : Bytes) :
    Settles (tailOperand f 1 = none) (tailCommand f mk) := by
  unfold tailCommand
  cases h : tailOperand f 1 with
  | none => exact settles_error rfl _
  | some body =>
    obtain ⟨-, hbody, -⟩ := tailOperand_eq_some h
    exact settles_ok (by simp) (by simpa [hmk] using hbody)

theorem decodeStamp_settles (f : Bytes) :
    Settles (tailOperand f 2 = none ∨ (f.getD 1 0 ≠ 0x00 ∧ f.getD 1 0 ≠ 0x01)) (decodeStamp f) := by
  unfold decodeStamp
  cases h : tailOperand f 2 with
  | none => exact settles_error (.inl rfl) _
  | some payload =>
    obtain ⟨-, hbody, hlen⟩ := tailOperand_eq_some h
    have hwf (fec : Bool) : (Instr.stamp fec payload).wellFormed = true := by simpa [Instr.wellFormed] using hbody
    simp only [operand_byte (f := f) (i := 1) (by omega), reduceCtorEq, false_or]
    split
    · next h0 => exact settles_ok (fun hb => hb.1 h0) (hwf _)
    · next h0 =>
      split
      · next h1 => exact settles_ok (fun hb => hb.2 h1) (hwf _)
      · next h1 => exact settles_error ⟨h0, h1⟩ _

/-- R52, R96: the decoder refuses exactly the illegal frames and reads a well-formed command from every other. -/
theorem decode_settles (f : Bytes) : Settles (IllegalFrame f) (decode f) := by
  cases f with
  | nil => exact settles_error illegalFrame_nil _
  | cons b rest =>
    cases hop : opcodeOf b with
    | none =>
      simp only [decode, hop]
      exact settles_error (illegalFrame_of_unassigned hop rest) _
    | some op =>
      obtain rfl := code_of_opcodeOf hop
      simp only [decode, hop]
      cases op with
      | configure => rw [illegalFrame_configure]; exact settles_length rfl
      | stamp => rw [illegalFrame_stamp]; exact decodeStamp_settles _
      | parse => rw [illegalFrame_tail (by simp)]; exact tailCommand_settles (fun _ => rfl) _
      | encPush => rw [illegalFrame_tail (by simp)]; exact tailCommand_settles (fun _ => rfl) _
      | encFlush => rw [illegalFrame_encFlush]; exact settles_length rfl
      | decFeed => rw [illegalFrame_tail (by simp)]; exact tailCommand_settles (fun _ => rfl) _
      | rxPacket => rw [illegalFrame_tail (by simp)]; exact tailCommand_settles (fun _ => rfl) _
      | inspect => rw [illegalFrame_inspect]; exact settles_length rfl

/-! ### One frame run -/

theorem runFrame_ok {f : Bytes} {i : Instr} (h : decode f = .ok i) (s : State) : runFrame f s = exec i s := by
  simp only [runFrame, h]

theorem runFrame_error {f : Bytes} {e : Illegal} (h : decode f = .error e) (s : State) :
    runFrame f s = .next (s.raise .errIllegal 0) := by
  simp only [runFrame, h, State.illegal]

/-- R51: a frame of 20 bytes with CONFIGURE's opcode is a CONFIGURE whose MODE is byte 5. -/
theorem decode_configure {f : Bytes} (hop : f.head? = some 0x01) (hlen : f.length = 20) :
    ∃ magic minb pkt rep sblk spkt, decode f = .ok (.configure magic (f.getD 5 0) minb pkt rep sblk spkt) := by
  obtain ⟨rest, rfl⟩ := List.head?_eq_some_iff.1 hop
  have hdec : decode (0x01 :: rest) = decodeConfigure (0x01 :: rest) := by
    simp only [decode, show opcodeOf 0x01 = some .configure from opcodeOf_code .configure]
  rw [hdec, decodeConfigure, if_pos hlen, operand_byte (i := 5) (by omega)]
  exact ⟨_, _, _, _, _, _, rfl⟩

/-- R17, R90: CONFIGURE rejects a MODE with a reserved bit set, whatever the other operands are. -/
theorem execConfigure_reserved {mode : BitVec 8} (h : 4 ≤ mode.toNat) (magic : BitVec 32) (minb : BitVec 32)
    (pkt rep : BitVec 16) (sblk : BitVec 32) (spkt : BitVec 16) (s : State) :
    execConfigure magic mode minb pkt rep sblk spkt s = .next (s.unconfigure.raise .cfgInvalid 0) := by
  have hclear : modeReservedClear mode = false := by simpa [modeReservedClear_eq] using h
  simp [execConfigure, configValid, hclear]

/-- Settles O5: `decode_settles` says which frames the decoder refuses, and a step is `runFrame` on what it answers. -/
theorem illegalFramesHaveNoEffect : Obligations.IllegalFramesHaveNoEffect := by
  intro s f rest hport
  rw [step_command hport]
  obtain ⟨hillegal, hlegal⟩ := decode_settles f
  refine ⟨fun hf => ?_, fun hf => ?_, fun ⟨hop, hlen, hmode⟩ => ?_⟩
  · obtain ⟨e, he⟩ := hillegal hf
    exact runFrame_error he _
  · obtain ⟨i, hi, hwf⟩ := hlegal hf
    exact ⟨i, hi, hwf, runFrame_ok hi _⟩
  · obtain ⟨magic, minb, pkt, rep, sblk, spkt, hdec⟩ := decode_configure hop hlen
    have hrun := (runFrame_ok hdec { s with port := rest }).trans (execConfigure_reserved hmode ..)
    exact ⟨_, hrun, rfl, rfl⟩

end Sys2Proof.Laws
end

section
/-! SUPPORT. Wire framing (R42, R58 to R62): the wire-header check reads back what `wireHeader` writes, and PARSE and
RX_PACKET each end where that check says. -/

namespace Sys2Proof.Laws

open Sys2Proof.Machine Sys2Proof.Safety

@[simp] theorem wireHeader_length (m : BitVec 32) (f : Bool) : (wireHeader m f).bytes.length = 5 := by
  simp [wireHeader_bytes]

theorem unbe_slice_wireHeader (m : BitVec 32) (f : Bool) (p : Bytes) :
    unbe (slice ((wireHeader m f).bytes ++ p) 0 4) = m.toNat := by
  rw [wireHeader_bytes, List.append_assoc]
  exact unbe_slice_mid [] _ 4 m.toNat 0 4 rfl rfl m.isLt

theorem getD_wireHeader_flag (m : BitVec 32) (f : Bool) (p : Bytes) :
    ((wireHeader m f).bytes ++ p).getD 4 0 = if f then 0x01 else 0x00 := by
  rw [wireHeader_bytes, List.append_assoc, List.getD_append_right _ _ _ _ (by simp)]
  simp

/-- R42, R59: behind a header of its own magic, the check answers the header's flag and everything after the header. -/
theorem parseWire_wireHeader (m : BitVec 32) (f : Bool) (p : Bytes) :
    parseWire m ((wireHeader m f).bytes ++ p) = .ok (f, p) := by
  obtain ⟨-, -, -, hplain, hfec⟩ := parseWire_cases m ((wireHeader m f).bytes ++ p)
  have hlen : 5 ≤ ((wireHeader m f).bytes ++ p).length := by simp
  have hrest : ((wireHeader m f).bytes ++ p).drop 5 = p := List.drop_left' (wireHeader_length m f)
  rw [hrest] at hplain hfec
  cases f with
  | false => exact hplain hlen (unbe_slice_wireHeader ..) (getD_wireHeader_flag ..)
  | true => exact hfec hlen (unbe_slice_wireHeader ..) (getD_wireHeader_flag ..)

/-- R21, R29: the header that STAMP chooses is the one of the configured magic and the flag. -/
theorem stampHeader_eq {s : State} (hs : BlockInv s) (hc : s.configured = true) (f : Bool) :
    (if f then s.cfg.hdrFec else s.cfg.hdrPlain) = wireHeader s.cfg.magic f := by
  obtain ⟨⟨-, hplain, hfec, -⟩, -, -⟩ := hs hc
  cases f with
  | false => exact hplain
  | true => exact hfec

/-- R58: STAMP under the invariant. -/
theorem exec_stamp {s : State} (hs : BlockInv s) (hc : s.configured = true) (f : Bool) (p : Bytes) :
    exec (.stamp f p) s = .next (s.finish .ok 0 [(wireHeader s.cfg.magic f).bytes ++ p]) := by
  rw [← stampHeader_eq hs hc f]
  exact ifConfigured_true hc

/-- R59: PARSE of a packet that passes the wire-header check. -/
theorem exec_parse_ok {s : State} (hc : s.configured = true) {b rem : Bytes} {f : Bool}
    (h : parseWire s.cfg.magic b = .ok (f, rem)) : exec (.parse b) s = .next (s.finish .ok (fecAux f) [rem]) := by
  have hexec : exec (.parse b) s = .next (parseState b s) := ifConfigured_true hc
  rw [hexec, parseState, h]

/-- R59: PARSE of a packet that the wire-header check drops. -/
theorem exec_parse_drop {s : State} (hc : s.configured = true) {b : Bytes} {st : Status}
    (h : parseWire s.cfg.magic b = .error st) : exec (.parse b) s = .next (s.raise st 0) := by
  have hexec : exec (.parse b) s = .next (parseState b s) := ifConfigured_true hc
  rw [hexec, parseState, h]

/-- R60: RX_PACKET of a packet that the wire-header check drops. -/
theorem exec_rxPacket_drop {s : State} (hc : s.configured = true) {b : Bytes} {st : Status}
    (h : parseWire s.cfg.magic b = .error st) : exec (.rxPacket b) s = .next (s.raise st 0) := by
  have hexec : exec (.rxPacket b) s = .next (rxPacketState b s) := ifConfigured_true hc
  rw [hexec, rxPacketState, h]

/-- Settles O28: STAMP's item is the configured magic's header and the payload, which `parseWire_wireHeader` takes apart. -/
theorem framingRoundTrip : Obligations.FramingRoundTrip := by
  intro f p s hs hc _
  exact ⟨_, _, exec_stamp hs hc f p, rfl, exec_parse_ok (s := s.finish ..) hc (parseWire_wireHeader ..)⟩

/-- Settles O29: PARSE and RX_PACKET raise whatever drop the one wire-header check answers. -/
theorem magicFiltering : Obligations.MagicFiltering := by
  intro b s hc
  obtain ⟨hshort, hforeign, -⟩ := parseWire_cases s.cfg.magic b
  refine ⟨fun hlen hmagic => ?_, fun hlen => ?_⟩
  · exact ⟨exec_parse_drop hc (hforeign hlen hmagic), exec_rxPacket_drop hc (hforeign hlen hmagic)⟩
  · exact ⟨exec_parse_drop hc (hshort hlen), exec_rxPacket_drop hc (hshort hlen)⟩

end Sys2Proof.Laws
end

section
/-! SUPPORT. The drops of DEC_FEED (R71, R73, R75, R76): what its checks answer on a packet of a decoded block and on a
packet of a block that has a session. -/

namespace Sys2Proof.Laws

open Sys2Proof.Machine Sys2Proof.Safety

section
variable {C : Bytes} {cfg : ConfigRegs} {p : Params} {dec : Decoder} {n : Nat} {c : Coded}

/-- R73: the check on DECODED comes before every check on F, T, ESI and symbol. -/
theorem feedCoded_decoded (hm : modeFec cfg.mode = true) (hc : codedFields cfg C = some c) (hd : c.id ∈ dec.decoded) :
    feedCoded C cfg p dec n = Feed.drop .dropDup c.id dec n := by
  simp only [feedCoded, hm, hc, if_pos hd, Bool.not_true, Bool.false_eq_true, if_false]

/-- R75, R76: the two checks that remain once a packet of an undecoded block has its session. -/
theorem feedCoded_session {e : Session} (hm : modeFec cfg.mode = true) (hc : codedFields cfg C = some c)
    (hd : c.id ∉ dec.decoded) (he : sessionFor p dec c = some e) :
    feedCoded C cfg p dec n =
      if p.esiLimit ≤ c.esi.toNat then Feed.drop .dropBadsym c.id dec n
      else if c.sym.length ≠ e.T then Feed.drop .dropSymlen c.id dec n
      else acceptSymbol p c e dec n := by
  simp only [feedCoded, hm, hc, if_neg hd, he, Bool.not_true, Bool.false_eq_true, if_false, ge_iff_le]

/-- R77 to R82: a symbol that passed every check is not dropped. -/
theorem acceptSymbol_not_dropBadsym (e : Session) : (acceptSymbol p c e dec n).status ≠ .dropBadsym := by
  rcases acceptSymbol_status p c e dec n with h | h | h <;> simp [h]

/-- R75: DROP_BADSYM comes from the ESI check alone. -/
theorem feedCoded_dropBadsym (h : (feedCoded C cfg p dec n).status = .dropBadsym) :
    ∃ c, codedFields cfg C = some c ∧ p.esiLimit ≤ c.esi.toNat := by
  unfold feedCoded at h
  split at h
  · cases h
  · split at h
    · cases h
    · next c hc =>
      split at h
      · cases h
      · split at h
        · cases h
        · next e _ =>
          split at h
          · next hesi => exact ⟨c, hc, hesi⟩
          · split at h
            · cases h
            · exact absurd h (acceptSymbol_not_dropBadsym e)

end

/-- R75: an identifier field of 24 bits never reaches the reference limit. -/
theorem feedCoded_not_dropBadsym {C : Bytes} {cfg : ConfigRegs} {p : Params} {dec : Decoder} {n : Nat}
    (hp : p.esiLimit = 2 ^ 24) : (feedCoded C cfg p dec n).status ≠ .dropBadsym := by
  intro h
  obtain ⟨c, -, hesi⟩ := feedCoded_dropBadsym h
  have hlt : c.esi.toNat < 2 ^ 24 := c.esi.isLt
  omega

/-! ### The command -/

/-- R71: DEC_FEED on a configured block. -/
theorem exec_decFeed {s : State} (hs : s.configured = true) (C : Bytes) :
    exec (.decFeed C) s = .next (decFeedState C s) :=
  ifConfigured_true hs

/-- R71: a DEC_FEED whose checks drop the packet changes nothing but the response. -/
theorem exec_decFeed_drop {s : State} {C : Bytes} {st : Status} {aux : Byte} (hs : s.configured = true)
    (h : feedCoded C s.cfg s.params s.dec s.draws = Feed.drop st aux s.dec s.draws) :
    exec (.decFeed C) s = .next (s.raise st aux) := by
  rw [exec_decFeed hs, decFeedState, h]
  rfl

/-- R23, R71: the response of a DEC_FEED, configured or not. -/
theorem exec_decFeed_response {s t : State} {C : Bytes} {r : Response} (h : exec (.decFeed C) s = .next t)
    (hr : t.response = some r) :
    r.status = .errUnconfigured ∨ r.status = (feedCoded C s.cfg s.params s.dec s.draws).status := by
  rcases ifConfigured_next h with ⟨-, rfl⟩ | ⟨-, rfl⟩
  · exact .inr (by injection hr with hr; rw [← hr])
  · exact .inl (by injection hr with hr; rw [← hr])

/-- Settles O44: `feedCoded_decoded` reads nothing of the packet but its identifier. -/
theorem decodedBlocksAreDeduplicated : Obligations.DecodedBlocksAreDeduplicated :=
  fun _ _ _ hs hm hc hd => exec_decFeed_drop hs (feedCoded_decoded hm hc hd)

/-- Settles O45: the ESI check is the first one after the session's, and the 24-bit field stays below 2^24. -/
theorem esiOutOfRangeIsDropped : Obligations.EsiOutOfRangeIsDropped := by
  refine ⟨fun C s c e hs hm hc hd he hesi => ?_, fun C s t r hp hexec hr => ?_⟩
  · exact exec_decFeed_drop hs ((feedCoded_session hm hc hd he).trans (if_pos hesi))
  · rcases exec_decFeed_response hexec hr with h | h
    · simp [h]
    · rw [h]
      exact feedCoded_not_dropBadsym hp

/-- Settles O46: the length check follows the ESI check, before any symbol is stored. -/
theorem wrongSymbolLengthIsDropped : Obligations.WrongSymbolLengthIsDropped := by
  intro C s c e hs hm hc hd he hesi hlen
  refine exec_decFeed_drop hs ((feedCoded_session hm hc hd he).trans ?_)
  rw [if_neg (by omega), if_pos hlen]

end Sys2Proof.Laws
end

section
/-! SUPPORT. The forms of the eviction window and its 127 identifiers (R84, R85). -/

namespace Sys2Proof.Laws

open Sys2Proof.Machine

/-- R85: the window in terms of the signed offset. -/
theorem inWindow_iff_delta (x c : BlockId) : inWindow x c = true ↔ -63 ≤ delta x c ∧ delta x c ≤ 63 := by
  rw [inWindow, decide_eq_true_iff]
  omega

/-- R85: the source's bounds `c - 64` and `c + 64` differ by 128 modulo 256, so they never meet. -/
theorem windowLo_ne_windowHi (c : BlockId) : (c.toNat + 256 - 64) % 256 ≠ (c.toNat + 64) % 256 := by
  omega

/-- R85: strictly between the source's bounds, with and without the wrap, is at most 63 steps from the centre. -/
theorem inWindowSourceForm_iff (x c : BlockId) :
    inWindowSourceForm x c = true ↔ fwd x c ≤ 63 ∨ 193 ≤ fwd x c := by
  have hx := x.isLt
  have hc := c.isLt
  simp only [inWindowSourceForm, fwd]
  split <;> rw [decide_eq_true_iff] <;> omega

/-- R85: `windowIds` lists the window of `c` and nothing else. -/
theorem mem_windowIds_iff {n : Nat} {c : BlockId} :
    n ∈ windowIds c ↔ n < 256 ∧ inWindow (BitVec.ofNat 8 n) c = true := by
  have hc := c.isLt
  constructor
  · intro h
    obtain ⟨i, hi, rfl⟩ := List.mem_map.1 h
    rw [List.mem_range] at hi
    rw [inWindow_iff, fwd, BitVec.toNat_ofNat]
    omega
  · rintro ⟨hn, h⟩
    have hmem := mem_windowIds h
    rwa [BitVec.toNat_ofNat, Nat.mod_eq_of_lt hn] at hmem

/-- R85: 127 steps from `c - 63` on do not come round to the same identifier. -/
theorem windowIds_nodup (c : BlockId) : (windowIds c).Nodup := by
  refine List.Nodup.map_on (fun i hi j hj hij => ?_) List.nodup_range
  rw [List.mem_range] at hi hj
  omega

/-- R85: the identifiers in the window of `c` are those of `windowIds`, each once. -/
theorem filter_inWindow_perm (c : BlockId) :
    ((List.range 256).filter fun n => inWindow (BitVec.ofNat 8 n) c).Perm (windowIds c) := by
  rw [List.perm_ext_iff_of_nodup (List.nodup_range.filter _) (windowIds_nodup c)]
  intro n
  rw [mem_windowIds_iff, List.mem_filter, List.mem_range]

theorem length_windowIds (c : BlockId) : (windowIds c).length = 127 := by
  rw [windowIds, List.length_map, List.length_range]

/-- Settles O57: each form is a bound on the forward distance, and the members are the 127 of `windowIds`. -/
theorem windowForms : Obligations.WindowForms := fun c =>
  ⟨fun x => inWindow_iff x c, fun x => inWindow_iff_delta x c,
    fun x => Bool.eq_iff_iff.2 ((inWindowSourceForm_iff x c).trans (inWindow_iff x c).symm),
    windowLo_ne_windowHi c, (filter_inWindow_perm c).length_eq.trans (length_windowIds c)⟩

end Sys2Proof.Laws
end

section
/-! SUPPORT. Command frames (R50, R51): the decoder on the encoder's output, field by field, and the encoder on the
decoder's. -/

namespace Sys2Proof.Laws

open Sys2Proof.Machine

/-! ### Operands at fixed places -/

theorem operand_cons_shift {w i j : Nat} (x : Byte) (c : Bytes) (h : 1 ≤ i) :
    operand w (x :: c) i j = operand w c (i - 1) (j - 1) := by
  have hs : slice ([x] ++ c) i j = slice c (i - 1) (j - 1) := slice_append_shift [x] c i j h
  rw [operand, operand, ← hs, List.singleton_append]

theorem operand_be_shift {w n v i j : Nat} (c : Bytes) (h : n ≤ i) :
    operand w (be n v ++ c) i j = operand w c (i - n) (j - n) := by
  rw [operand, operand, slice_append_shift _ _ _ _ (by simpa using h), be_length]

/-- R50: a big-endian field of a whole number of bytes reads as the operand it was written from. -/
theorem operand_be_head {w n : Nat} (v : BitVec w) (c : Bytes) (hw : w = 8 * n) :
    operand w (be n v.toNat ++ c) 0 n = v := by
  subst hw
  have hv : v.toNat < 256 ^ n := by
    have hlt := v.isLt
    rwa [pow_mul] at hlt
  have h := operand_append (w := 8 * n) [] c v.toNat hv
  rw [List.nil_append, List.length_nil, Nat.zero_add] at h
  rw [h, BitVec.ofNat_toNat, BitVec.setWidth_eq]

theorem operand_be {w n : Nat} (v : BitVec w) (hw : w = 8 * n) : operand w (be n v.toNat) 0 n = v := by
  simpa using operand_be_head v [] hw

/-! ### Decoding what the encoder writes -/

theorem tailCommand_encodeTail (op : Byte) (mk : Bytes → Instr) {body : Bytes} (h : body.length ≤ 65535) :
    tailCommand (op :: encodeTail body) mk = .ok (mk body) := by
  have htail : tailOperand (op :: encodeTail body) 1 = some body := tailOperand_encode [op] body h
  rw [tailCommand, htail]

theorem decodeStamp_encode (op : Byte) (fec : Bool) {payload : Bytes} (h : payload.length ≤ 65535) :
    decodeStamp (op :: (if fec then 0x01 else 0x00) :: encodeTail payload) = .ok (.stamp fec payload) := by
  have htail (x : Byte) : tailOperand (op :: x :: encodeTail payload) 2 = some payload :=
    tailOperand_encode [op, x] payload h
  have hflag (x : Byte) : operand 8 (op :: x :: encodeTail payload) 1 2 = x := operand_byte (i := 1) (by simp)
  cases fec <;> simp [decodeStamp, htail, hflag]

/-- R51: the seven fields of CONFIGURE. -/
theorem decodeConfigure_encode (magic : BitVec 32) (mode : BitVec 8) (minb : BitVec 32) (pkt rep : BitVec 16)
    (sblk : BitVec 32) (spkt : BitVec 16) :
    decodeConfigure (encode (.configure magic mode minb pkt rep sblk spkt)) =
      .ok (.configure magic mode minb pkt rep sblk spkt) := by
  have hlen : (encode (.configure magic mode minb pkt rep sblk spkt)).length = 20 := by simp [encode]
  rw [decodeConfigure, if_pos hlen]
  simp only [encode, List.append_assoc]
  simp [operand_cons_shift, operand_be_shift, operand_be_head, operand_be]

/-- Settles O1: the opcode byte names the command, and each operand is read back from where it was written. -/
theorem decodeInvertsEncode : Obligations.DecodeInvertsEncode := by
  intro i hi
  cases i with
  | configure magic mode minb pkt rep sblk spkt =>
    have h := decodeConfigure_encode magic mode minb pkt rep sblk spkt
    rw [encode] at h ⊢
    simpa only [decode, opcodeOf_code] using h
  | stamp fec payload =>
    simp only [encode, decode, opcodeOf_code]
    exact decodeStamp_encode _ fec (of_decide_eq_true hi)
  | parse b | encPush b | decFeed b | rxPacket b =>
    simp only [encode, decode, opcodeOf_code]
    exact tailCommand_encodeTail _ _ (of_decide_eq_true hi)
  | encFlush => simp [encode, decode]
  | inspect id =>
    have hid : operand 8 [Opcode.inspect.code, id] 1 2 = id := operand_byte (i := 1) (by simp)
    simp [encode, decode, hid]

/-! ### Encoding what the decoder reads -/

theorem encode_of_tailCommand {op : Byte} {rest : Bytes} {mk : Bytes → Instr} {i : Instr}
    (hmk : ∀ body, encode (mk body) = op :: encodeTail body) (h : tailCommand (op :: rest) mk = .ok i) :
    encode i = op :: rest := by
  unfold tailCommand at h
  cases htail : tailOperand (op :: rest) 1 with
  | none => simp [htail] at h
  | some body =>
    obtain ⟨hframe, -, -⟩ := tailOperand_eq_some htail
    simp only [htail, Except.ok.injEq] at h
    rw [← h, hmk, hframe]
    rfl

theorem encode_of_decodeStamp {rest : Bytes} {i : Instr} (h : decodeStamp (Opcode.stamp.code :: rest) = .ok i) :
    encode i = Opcode.stamp.code :: rest := by
  unfold decodeStamp at h
  cases htail : tailOperand (Opcode.stamp.code :: rest) 2 with
  | none => simp [htail] at h
  | some payload =>
    obtain ⟨hframe, -, hlen⟩ := tailOperand_eq_some htail
    cases rest with
    | nil => simp at hlen
    | cons x rest =>
      have hx : operand 8 (Opcode.stamp.code :: x :: rest) 1 2 = x := operand_byte (i := 1) (by simp)
      simp only [htail, hx] at h
      rw [hframe]
      split at h
      · next h0 => cases h; simp [encode, h0]
      · split at h
        · next h1 => cases h; simp [encode, h1]
        · cases h

theorem length_of_ok {f : Bytes} {n : Nat} {i j : Instr}
    (h : (if f.length = n then Except.ok j else Except.error Illegal.wrongLength) = .ok i) : f.length = n ∧ j = i := by
  split at h
  · next hlen => exact ⟨hlen, Except.ok.inj h⟩
  · cases h

theorem encode_of_decodeConfigure {rest : Bytes} {i : Instr}
    (h : decodeConfigure (Opcode.configure.code :: rest) = .ok i) : encode i = Opcode.configure.code :: rest := by
  obtain ⟨hlen, rfl⟩ := length_of_ok h
  have hrest : slice (Opcode.configure.code :: rest) 1 20 = rest :=
    List.take_of_length_le (Nat.le_of_succ_le_succ hlen.le)
  generalize hf : Opcode.configure.code :: rest = f at hlen hrest ⊢
  have field (n a : Nat) (hb : a + n ≤ 20) : be n (operand (8 * n) f a (a + n)).toNat = slice f a (a + n) :=
    be_operand (by omega)
  have hcat : slice f 1 5 ++ slice f 5 6 ++ slice f 6 10 ++ slice f 10 12 ++ slice f 12 14 ++ slice f 14 18 ++
      slice f 18 20 = slice f 1 20 := by
    simp only [slice_append_slice, Nat.reduceLeDiff]
  rw [encode, field 4 1 (by omega), field 1 5 (by omega), field 4 6 (by omega), field 2 10 (by omega),
    field 2 12 (by omega), field 4 14 (by omega), field 2 18 (by omega), hcat, hrest, hf]

/-- A command that the decoder answers is well-formed, whatever the frame. -/
theorem wellFormed_of_decode {f : Bytes} {i : Instr} (h : decode f = .ok i) : i.wellFormed = true := by
  obtain ⟨hillegal, hlegal⟩ := decode_settles f
  by_cases hf : Safety.IllegalFrame f
  · obtain ⟨e, he⟩ := hillegal hf
    cases h.symm.trans he
  · obtain ⟨j, hj, hwf⟩ := hlegal hf
    cases h.symm.trans hj
    exact hwf

theorem encode_of_decode {f : Bytes} {i : Instr} (h : decode f = .ok i) : encode i = f := by
  cases f with
  | nil => cases h
  | cons b rest =>
    cases hop : opcodeOf b with
    | none => simp [decode, hop] at h
    | some op =>
      obtain rfl := code_of_opcodeOf hop
      simp only [decode, hop] at h
      cases op with
      | configure => exact encode_of_decodeConfigure h
      | stamp => exact encode_of_decodeStamp h
      | parse | encPush | decFeed | rxPacket => exact encode_of_tailCommand (fun _ => rfl) h
      | encFlush =>
        obtain ⟨hlen, rfl⟩ := length_of_ok h
        rw [encode, List.length_eq_zero_iff.1 (Nat.succ.inj hlen)]
      | inspect =>
        obtain ⟨hlen, rfl⟩ := length_of_ok h
        obtain ⟨id, rfl⟩ := List.length_eq_one_iff.1 (Nat.succ.inj hlen)
        rw [encode, operand_byte (i := 1) (by simp)]
        rfl

/-- Settles O2: `decode_settles` gives the well-formedness, and each reader's fields write out as the frame's slices. -/
theorem encodeInvertsDecode : Obligations.EncodeInvertsDecode :=
  fun _ _ h => ⟨wellFormed_of_decode h, encode_of_decode h⟩

/-- Settles O3: a tail's two length bytes stand before the variable operand. -/
theorem frameLayout : Obligations.FrameLayout := by
  intro i
  have htail (op : Byte) (b : Bytes) : (op :: encodeTail b).length = 3 + b.length ∧
      (op :: encodeTail b).drop (3 + b.length - b.length) = b := by
    refine ⟨by simp [encodeTail]; omega, ?_⟩
    rw [Nat.add_sub_cancel, List.drop_succ_cons, encodeTail, List.drop_left' (be_length 2 _)]
  cases i with
  | configure | encFlush | inspect => simp [encode, Instr.opcode, Instr.frameLength, Instr.body]
  | stamp fec payload =>
    obtain ⟨hlen, hdrop⟩ := htail (if fec then 0x01 else 0x00) payload
    refine ⟨rfl, ?_, ?_⟩
    · simp only [encode, Instr.frameLength, List.length_cons (a := Opcode.stamp.code), hlen]; omega
    · rw [Nat.add_sub_cancel] at hdrop
      simpa [encode, Instr.frameLength, Instr.body] using hdrop
  | parse b | encPush b | decFeed b | rxPacket b => exact ⟨rfl, htail _ b⟩

/-- Settles O4: eight closed evaluations of the decoder. -/
theorem sampleFramesDecode : Obligations.SampleFramesDecode := by
  unfold Obligations.SampleFramesDecode
  decide

end Sys2Proof.Laws
end

section
/-! SUPPORT. What a command can leave of the block: one lemma for the CONFIGURED check, and one for each command that
says every way it can end, frame and statuses included (R11, R15, R36, R94). -/

namespace Sys2Proof.Laws

open Sys2Proof.Machine Sys2Proof.Safety

/-! ### The CONFIGURED check -/

/-- R15: CONFIGURED = 0 stops every command but CONFIGURE. -/
theorem exec_unconfigured {i : Instr} {s : State} (hi : i.opcode ≠ .configure) (hc : s.configured = false) :
    exec i s = .next (s.raise .errUnconfigured 0) := by
  cases i with
  | configure => exact absurd rfl hi
  | stamp | parse | encPush | encFlush | decFeed | rxPacket | inspect => exact ifConfigured_false hc

/-- R15: what holds of the command's own end and of the refusal holds of the state that the check leaves. -/
theorem ifConfigured_ind {motive : State → Prop} {s t u : State} (h : s.ifConfigured u = .next t) (hu : motive u)
    (hr : motive (s.raise .errUnconfigured 0)) : motive t := by
  rcases ifConfigured_next h with ⟨-, rfl⟩ | ⟨-, rfl⟩
  · exact hu
  · exact hr

theorem exec_parse {s : State} (hc : s.configured = true) (b : Bytes) : exec (.parse b) s = .next (parseState b s) :=
  ifConfigured_true hc

theorem exec_rxPacket {s : State} (hc : s.configured = true) (b : Bytes) :
    exec (.rxPacket b) s = .next (rxPacketState b s) :=
  ifConfigured_true hc

theorem exec_encPush {s : State} (hc : s.configured = true) (d : Bytes) :
    exec (.encPush d) s = .next (if modeFec s.cfg.mode then encPushFec d s else encPushPlain d s) :=
  ifConfigured_true hc

theorem exec_encFlush {s : State} (hc : s.configured = true) :
    exec .encFlush s = .next (if modeFec s.cfg.mode then encFlushFec s else s.finish .ok 0 []) :=
  ifConfigured_true hc

/-! ### How each command ends -/

/-- R59: PARSE drops, or delivers what stands behind the header. -/
theorem parseState_cases (b : Bytes) (s : State) :
    (∃ st ∈ [Status.dropForeign, .dropShort, .dropBadhdr], parseState b s = s.raise st 0) ∨
    ∃ aux rem, parseState b s = s.finish .ok aux [rem] := by
  unfold parseState
  split
  · next st h => exact .inl ⟨st, parseWire_error h, rfl⟩
  · exact .inr ⟨_, _, rfl⟩

/-- R71: DEC_FEED drops, or changes the decoder's state alone. -/
theorem decFeedState_cases (C : Bytes) (s : State) :
    (∃ st ∈ [Status.dropShort, .dropDup, .dropBadparam, .dropSymlen, .dropBadsym, .dropNofec], ∃ aux,
      decFeedState C s = s.raise st aux) ∨
    ∃ st ∈ [Status.needMore, .decodedBaddir, .decoded], ∃ dec n aux items,
      decFeedState C s = (s.withDec dec n).finish st aux items := by
  rcases feedCoded_cases C s.cfg s.params s.dec s.draws with ⟨st, aux, hst, h⟩ | ⟨-, c, e, -, -, -, -, -, h⟩
  · exact .inl ⟨st, hst, aux, by rw [decFeedState, h]; rfl⟩
  · have hst := acceptSymbol_status s.params c e s.dec s.draws
    exact .inr ⟨_, by simpa using hst, _, _, _, _, by rw [decFeedState, h]⟩

/-- R60: RX_PACKET drops, delivers a plain packet, or is a DEC_FEED. -/
theorem rxPacketState_cases (b : Bytes) (s : State) :
    (∃ st ∈ [Status.dropForeign, .dropShort, .dropBadhdr, .dropNofec], rxPacketState b s = s.raise st 0) ∨
    (∃ rem, rxPacketState b s = s.finish .ok 0 [rem]) ∨ ∃ rem, rxPacketState b s = decFeedState rem s := by
  unfold rxPacketState
  split
  · next st h =>
    have hst := parseWire_error h
    refine .inl ⟨st, ?_, rfl⟩
    simp only [List.mem_cons, List.not_mem_nil, or_false] at hst ⊢
    tauto
  · exact .inr (.inl ⟨_, rfl⟩)
  · split
    · exact .inr (.inr ⟨_, rfl⟩)
    · exact .inl ⟨_, by simp, rfl⟩

/-- R66, R67: ENC_PUSH changes the encoder's state alone. -/
theorem encPush_cases (d : Bytes) (s : State) :
    ∃ st ∈ [Status.ok, .encOversize], ∃ enc aux items,
      (if modeFec s.cfg.mode then encPushFec d s else encPushPlain d s) = (s.withEnc enc).finish st aux items := by
  unfold encPushFec encPushPlain
  split
  · split
    · exact ⟨_, by simp, s.enc, _, _, rfl⟩
    · exact ⟨_, buildStatus_mem _, _, _, _, rfl⟩
  · exact ⟨_, by simp, s.enc, _, _, rfl⟩

/-- R68: ENC_FLUSH changes the encoder's state alone. -/
theorem encFlush_cases (s : State) :
    ∃ st ∈ [Status.ok, .encOversize], ∃ enc aux items,
      (if modeFec s.cfg.mode then encFlushFec s else s.finish .ok 0 []) = (s.withEnc enc).finish st aux items := by
  unfold encFlushFec
  split
  · exact ⟨_, buildStatus_mem _, _, _, _, rfl⟩
  · exact ⟨_, by simp, s.enc, _, _, rfl⟩

/-! ### The three groups of commands -/

/-- R36: STAMP, PARSE and INSPECT write the response alone. -/
theorem exec_reader {i : Instr} {s : State} (hi : i.opcode ∈ [Opcode.stamp, .parse, .inspect]) :
    ∃ st aux items, exec i s = .next (s.finish st aux items) := by
  cases hc : s.configured with
  | false => exact ⟨_, _, _, exec_unconfigured (fun h => by simp [h] at hi) hc⟩
  | true =>
    cases i with
    | stamp | inspect => exact ⟨_, _, _, ifConfigured_true hc⟩
    | parse b =>
      rcases parseState_cases b s with ⟨st, -, h⟩ | ⟨aux, rem, h⟩ <;>
        exact ⟨_, _, _, (exec_parse hc b).trans (congrArg _ h)⟩
    | configure | encPush | encFlush | decFeed | rxPacket => simp [Instr.opcode] at hi

/-- R3: ENC_PUSH and ENC_FLUSH write the encoder's state and the response alone. -/
theorem exec_encoder {i : Instr} {s : State} (hi : i.opcode ∈ [Opcode.encPush, .encFlush]) :
    ∃ enc st aux items, exec i s = .next ((s.withEnc enc).finish st aux items) := by
  cases hc : s.configured with
  | false => exact ⟨s.enc, _, _, _, exec_unconfigured (fun h => by simp [h] at hi) hc⟩
  | true =>
    cases i with
    | encPush d =>
      obtain ⟨st, -, enc, aux, items, h⟩ := encPush_cases d s
      exact ⟨enc, st, aux, items, (exec_encPush hc d).trans (congrArg _ h)⟩
    | encFlush =>
      obtain ⟨st, -, enc, aux, items, h⟩ := encFlush_cases s
      exact ⟨enc, st, aux, items, (exec_encFlush hc).trans (congrArg _ h)⟩
    | configure | stamp | parse | decFeed | rxPacket | inspect => simp [Instr.opcode] at hi

/-- R3: DEC_FEED and RX_PACKET write the decoder's state, the draw count and the response alone. -/
theorem exec_decoder {i : Instr} {s : State} (hi : i.opcode ∈ [Opcode.decFeed, .rxPacket]) :
    ∃ dec n st aux items, exec i s = .next ((s.withDec dec n).finish st aux items) := by
  have feed (C : Bytes) : ∃ dec n st aux items, decFeedState C s = (s.withDec dec n).finish st aux items :=
    ⟨_, _, _, _, _, rfl⟩
  cases hc : s.configured with
  | false => exact ⟨s.dec, s.draws, _, _, _, exec_unconfigured (fun h => by simp [h] at hi) hc⟩
  | true =>
    cases i with
    | decFeed C =>
      obtain ⟨dec, n, st, aux, items, h⟩ := feed C
      exact ⟨dec, n, st, aux, items, (exec_decFeed hc C).trans (congrArg _ h)⟩
    | rxPacket b =>
      rw [exec_rxPacket hc b]
      rcases rxPacketState_cases b s with ⟨st, -, h⟩ | ⟨rem, h⟩ | ⟨rem, h⟩
      · exact ⟨s.dec, s.draws, _, _, _, congrArg _ h⟩
      · exact ⟨s.dec, s.draws, _, _, _, congrArg _ h⟩
      · obtain ⟨dec, n, st, aux, items, hf⟩ := feed rem
        exact ⟨dec, n, st, aux, items, congrArg _ (h.trans hf)⟩
    | configure | stamp | parse | encPush | encFlush | inspect => simp [Instr.opcode] at hi

/-- R23: every command but CONFIGURE leaves the configuration, the parameters and the port as they are. -/
theorem exec_frame {i : Instr} {s : State} (hi : i.opcode ≠ .configure) :
    ∃ enc dec n st aux items, exec i s = .next (((s.withEnc enc).withDec dec n).finish st aux items) := by
  have hgroup : i.opcode ∈ [Opcode.stamp, .parse, .inspect] ∨ i.opcode ∈ [Opcode.encPush, .encFlush] ∨
      i.opcode ∈ [Opcode.decFeed, .rxPacket] := by
    cases h : i.opcode <;> simp_all
  rcases hgroup with h | h | h
  · obtain ⟨st, aux, items, h⟩ := exec_reader (s := s) h
    exact ⟨s.enc, s.dec, s.draws, st, aux, items, h⟩
  · obtain ⟨enc, st, aux, items, h⟩ := exec_encoder (s := s) h
    exact ⟨enc, s.dec, s.draws, st, aux, items, h⟩
  · obtain ⟨dec, n, st, aux, items, h⟩ := exec_decoder (s := s) h
    exact ⟨s.enc, dec, n, st, aux, items, h⟩

/-- R90: CONFIGURE accepts or rejects. -/
theorem exec_configure_cases (magic : BitVec 32) (mode : BitVec 8) (minb : BitVec 32) (pkt rep : BitVec 16)
    (sblk : BitVec 32) (spkt : BitVec 16) (s : State) :
    (configValid s.params mode pkt sblk spkt = true ∧ exec (.configure magic mode minb pkt rep sblk spkt) s =
      .next ((s.construct (configRegs s.params magic mode minb pkt rep sblk spkt)).finish .ok 0 [])) ∨
    (configValid s.params mode pkt sblk spkt = false ∧ exec (.configure magic mode minb pkt rep sblk spkt) s =
      .next (s.unconfigure.raise .cfgInvalid 0)) := by
  cases hv : configValid s.params mode pkt sblk spkt with
  | true => exact .inl ⟨rfl, by simp [exec, execConfigure, hv]⟩
  | false => exact .inr ⟨rfl, by simp [exec, execConfigure, hv]⟩

/-! ### What follows for every command -/

/-- Settles O11: CONFIGURE ends in one of two ways and every other command has the form of `exec_frame`. -/
theorem everyCommandAnswers : Obligations.EveryCommandAnswers := by
  intro i s
  by_cases hi : i.opcode = .configure
  · cases i with
    | configure magic mode minb pkt rep sblk spkt =>
      rcases exec_configure_cases magic mode minb pkt rep sblk spkt s with ⟨-, h⟩ | ⟨-, h⟩ <;>
        exact ⟨_, _, h, rfl, rfl, rfl⟩
    | stamp | parse | encPush | encFlush | decFeed | rxPacket | inspect => cases hi
  · obtain ⟨enc, dec, n, st, aux, items, h⟩ := exec_frame (s := s) hi
    exact ⟨_, _, h, rfl, rfl, rfl⟩

/-- Settles O22: read off the form of `exec_frame`. -/
theorem onlyConfigureWritesConfiguration : Obligations.OnlyConfigureWritesConfiguration := by
  intro i s t hi h
  obtain ⟨enc, dec, n, st, aux, items, h'⟩ := exec_frame (s := s) hi
  cases h.symm.trans h'
  exact ⟨rfl, rfl⟩

/-- Settles O15: `exec_unconfigured`, and CONFIGURED is 0 in the reset state. -/
theorem unconfiguredRefusesCommands : Obligations.UnconfiguredRefusesCommands :=
  ⟨rfl, fun _ _ hc hi => exec_unconfigured hi hc⟩

/-- Settles O30: read off the form of `exec_reader`. -/
theorem readersChangeNothing : Obligations.ReadersChangeNothing := by
  intro i s t hi h
  obtain ⟨st, aux, items, h'⟩ := exec_reader (s := s) hi
  cases h.symm.trans h'
  rfl

/-- Settles O39: read off the form of `exec_encoder`. -/
theorem encoderCommandsFrame : Obligations.EncoderCommandsFrame := by
  intro i s t hi h
  obtain ⟨enc, st, aux, items, h'⟩ := exec_encoder (s := s) hi
  cases h.symm.trans h'
  rfl

/-- Settles O53: read off the form of `exec_decoder`. -/
theorem decoderCommandsFrame : Obligations.DecoderCommandsFrame := by
  intro i s t hi h
  obtain ⟨dec, n, st, aux, items, h'⟩ := exec_decoder (s := s) hi
  cases h.symm.trans h'
  rfl

/-- R94: the statuses that the table's column "given by" has for a command (`exec_status`). -/
def statusesOf : Opcode → List Status
  | .configure => [.ok, .cfgInvalid]
  | .stamp | .inspect => [.ok]
  | .parse => [.ok, .dropForeign, .dropShort, .dropBadhdr]
  | .encPush | .encFlush => [.ok, .encOversize]
  | .decFeed => [.needMore, .decoded, .decodedBaddir, .dropShort, .dropDup, .dropBadparam, .dropSymlen, .dropBadsym,
      .dropNofec]
  | .rxPacket => [.ok, .needMore, .decoded, .decodedBaddir, .dropForeign, .dropShort, .dropBadhdr, .dropDup,
      .dropBadparam, .dropSymlen, .dropBadsym, .dropNofec]

/-- R94: what each command can answer in a configured block (CONFIGURE in any). -/
theorem exec_status {i : Instr} {s t : State} {r : Response} (h : exec i s = .next t) (hr : t.response = some r)
    (hc : i.opcode = .configure ∨ s.configured = true) : r.status ∈ statusesOf i.opcode := by
  cases i with
  | configure magic mode minb pkt rep sblk spkt =>
    rcases exec_configure_cases magic mode minb pkt rep sblk spkt s with ⟨-, h'⟩ | ⟨-, h'⟩ <;>
      (cases h.symm.trans h'; cases hr; simp [Instr.opcode, statusesOf])
  | stamp | inspect =>
    cases h.symm.trans (ifConfigured_true (hc.resolve_left (by simp [Instr.opcode])))
    cases hr
    exact List.mem_singleton_self _
  | parse b =>
    cases h.symm.trans (exec_parse (hc.resolve_left (by simp [Instr.opcode])) b)
    rcases parseState_cases b s with ⟨st, hst, h'⟩ | ⟨aux, rem, h'⟩ <;> rw [h'] at hr <;> cases hr
    · exact List.mem_cons_of_mem _ hst
    · exact List.mem_cons_self
  | encPush d =>
    cases h.symm.trans (exec_encPush (hc.resolve_left (by simp [Instr.opcode])) d)
    obtain ⟨st, hst, enc, aux, items, h'⟩ := encPush_cases d s
    rw [h'] at hr; cases hr; exact hst
  | encFlush =>
    cases h.symm.trans (exec_encFlush (hc.resolve_left (by simp [Instr.opcode])))
    obtain ⟨st, hst, enc, aux, items, h'⟩ := encFlush_cases s
    rw [h'] at hr; cases hr; exact hst
  | decFeed C =>
    cases h.symm.trans (exec_decFeed (hc.resolve_left (by simp [Instr.opcode])) C)
    cases hr
    exact feedCoded_status C s.cfg s.params s.dec s.draws
  | rxPacket b =>
    cases h.symm.trans (exec_rxPacket (hc.resolve_left (by simp [Instr.opcode])) b)
    rcases rxPacketState_cases b s with ⟨st, hst, h'⟩ | ⟨rem, h'⟩ | ⟨rem, h'⟩ <;> rw [h'] at hr <;> cases hr
    · simp only [Instr.opcode, statusesOf, List.mem_cons, List.not_mem_nil, or_false] at hst ⊢
      tauto
    · exact List.mem_cons_self
    · have hst := feedCoded_status rem s.cfg s.params s.dec s.draws
      simp only [Instr.opcode, statusesOf, List.mem_cons, List.not_mem_nil, or_false] at hst ⊢
      tauto

/-- Settles O13: the CONFIGURED check answers ERR_UNCONFIGURED, and `exec_status` lists the rest. -/
theorem statusesOfEachCommand : Obligations.StatusesOfEachCommand := by
  intro i s t r h hr
  by_cases hc : i.opcode = .configure ∨ s.configured = true
  · have hst := exec_status h hr hc
    refine .inr ?_
    cases i with
    | stamp | inspect => exact List.mem_singleton.1 hst
    | configure | parse | encPush | encFlush | decFeed | rxPacket => exact hst
  · obtain ⟨hi, hs⟩ := not_or.1 hc
    have hs : s.configured = false := by simpa using hs
    cases h.symm.trans (exec_unconfigured hi hs)
    cases hr
    exact .inl ⟨hi, hs, rfl⟩

/-! ### Drops -/

/-- R71, R94: a response that is a drop comes without items and without any other change. -/
def DropIsNoop (s t : State) : Prop :=
  ∀ r, t.response = some r → r.status.isDrop = true → r.items = [] ∧ t = { s with response := some r }

theorem dropIsNoop_raise (s : State) (st : Status) (aux : Byte) : DropIsNoop s (s.raise st aux) := by
  intro r hr _
  cases hr
  exact ⟨rfl, rfl⟩

theorem dropIsNoop_finish {s u : State} {st : Status} (hst : st.isDrop = false) (aux : Byte) (items : List Bytes) :
    DropIsNoop s (u.finish st aux items) := by
  intro r hr hdrop
  cases hr
  simp [hst] at hdrop

theorem dropIsNoop_decFeedState (C : Bytes) (s : State) : DropIsNoop s (decFeedState C s) := by
  rcases decFeedState_cases C s with ⟨st, -, aux, h⟩ | ⟨st, hst, dec, n, aux, items, h⟩ <;> rw [h]
  · exact dropIsNoop_raise s st aux
  · refine dropIsNoop_finish ?_ aux items
    simp only [List.mem_cons, List.not_mem_nil, or_false] at hst
    rcases hst with rfl | rfl | rfl <;> rfl

theorem isDrop_of_encoder_status {st : Status} (h : st ∈ [Status.ok, .encOversize]) : st.isDrop = false := by
  simp only [List.mem_cons, List.not_mem_nil, or_false] at h
  rcases h with rfl | rfl <;> rfl

/-- Settles O14: a drop is always `raise`, and the commands that end in another way answer no drop. -/
theorem dropsChangeNothing : Obligations.DropsChangeNothing := by
  suffices hnoop : ∀ i s t, exec i s = .next t → DropIsNoop s t from
    fun i s t r h hr hdrop => hnoop i s t h r hr hdrop
  intro i s t h
  have check {u : State} (hnext : s.ifConfigured u = .next t) (hu : DropIsNoop s u) : DropIsNoop s t :=
    ifConfigured_ind hnext hu (dropIsNoop_raise s _ _)
  cases i with
  | configure magic mode minb pkt rep sblk spkt =>
    rcases exec_configure_cases magic mode minb pkt rep sblk spkt s with ⟨-, h'⟩ | ⟨-, h'⟩ <;>
      (cases h.symm.trans h'; exact dropIsNoop_finish rfl _ _)
  | stamp | inspect => exact check h (dropIsNoop_finish rfl _ _)
  | parse b =>
    refine check h ?_
    rcases parseState_cases b s with ⟨st, -, h'⟩ | ⟨aux, rem, h'⟩ <;> rw [h']
    · exact dropIsNoop_raise s _ _
    · exact dropIsNoop_finish rfl _ _
  | encPush d =>
    obtain ⟨st, hst, enc, aux, items, h'⟩ := encPush_cases d s
    exact check h (h' ▸ dropIsNoop_finish (isDrop_of_encoder_status hst) _ _)
  | encFlush =>
    obtain ⟨st, hst, enc, aux, items, h'⟩ := encFlush_cases s
    exact check h (h' ▸ dropIsNoop_finish (isDrop_of_encoder_status hst) _ _)
  | decFeed C => exact check h (dropIsNoop_decFeedState C s)
  | rxPacket b =>
    refine check h ?_
    rcases rxPacketState_cases b s with ⟨st, -, h'⟩ | ⟨rem, h'⟩ | ⟨rem, h'⟩ <;> rw [h']
    · exact dropIsNoop_raise s _ _
    · exact dropIsNoop_finish rfl _ _
    · exact dropIsNoop_decFeedState rem s

/-! ### What a command does not read -/

/-- Settles O16: before an accepted CONFIGURE nothing is read, and an accepted one writes every element anew. -/
theorem unspecifiedStateIsNeverRead : Obligations.UnspecifiedStateIsNeverRead := by
  intro i s cfg enc dec hs
  by_cases hi : i.opcode = .configure
  · cases i with
    | configure magic mode minb pkt rep sblk spkt =>
      have h' := exec_configure_cases magic mode minb pkt rep sblk spkt { s with cfg := cfg, enc := enc, dec := dec }
      rcases exec_configure_cases magic mode minb pkt rep sblk spkt s with ⟨hv, h⟩ | ⟨hv, h⟩
      · exact ⟨_, _, h, (h'.resolve_right (by simp [hv])).2, rfl, rfl, fun _ => rfl⟩
      · exact ⟨_, _, h, (h'.resolve_left (by simp [hv])).2, rfl, rfl, fun _ => rfl⟩
    | stamp | parse | encPush | encFlush | decFeed | rxPacket | inspect => cases hi
  · refine ⟨_, _, exec_unconfigured hi hs, exec_unconfigured hi hs, rfl, rfl, fun hc => ?_⟩
    simp [hs] at hc

/-- A change of the state that the CONFIGURED check and a command's steps commute with, commutes with the command. -/
theorem ifConfigured_commutes (f : State → State) {s u u' : State} (hc : (f s).configured = s.configured)
    (hr : (f s).raise .errUnconfigured 0 = f (s.raise .errUnconfigured 0)) (hu : u' = f u) :
    ∃ t, s.ifConfigured u = .next t ∧ (f s).ifConfigured u' = .next (f t) := by
  cases hs : s.configured with
  | true => exact ⟨u, ifConfigured_true hs, by rw [ifConfigured_true (hc.trans hs), hu]⟩
  | false => exact ⟨_, ifConfigured_false hs, by rw [ifConfigured_false (hc.trans hs), hr]⟩

/-- Settles O40: the encoder's steps read the configuration, the parameters and the encoder's state alone. -/
theorem encoderIgnoresDecoder : Obligations.EncoderIgnoresDecoder := by
  intro i s dec n hi
  have commutes {u u' : State} (h : u' = { u with dec := dec, draws := n }) :=
    ifConfigured_commutes (fun s => { s with dec := dec, draws := n }) (s := s) rfl rfl h
  cases i with
  | encPush d =>
    refine commutes ?_
    unfold encPushFec encPushPlain
    split
    · split <;> rfl
    · rfl
  | encFlush =>
    refine commutes ?_
    unfold encFlushFec
    split <;> rfl
  | configure | stamp | parse | decFeed | rxPacket | inspect => simp [Instr.opcode] at hi

/-- Settles O54: the decoder's steps read the configuration, the parameters, the decoder's state and the draw count
alone. -/
theorem decoderIgnoresEncoder : Obligations.DecoderIgnoresEncoder := by
  intro i s enc hi
  have commutes {u u' : State} (h : u' = { u with enc := enc }) :=
    ifConfigured_commutes (fun s => { s with enc := enc }) (s := s) rfl rfl h
  cases i with
  | decFeed C => exact commutes rfl
  | rxPacket b =>
    refine commutes ?_
    simp only [rxPacketState]
    rcases parseWire s.cfg.magic b with st | ⟨_ | _, rem⟩
    · rfl
    · rfl
    · dsimp only
      split <;> rfl
  | configure | stamp | parse | encPush | encFlush | inspect => simp [Instr.opcode] at hi

end Sys2Proof.Laws
end

section
/-! SUPPORT. Steps (R12, R38, R39, R106), and the invariant that every step keeps (R29, R32). -/

namespace Sys2Proof.Laws

open Sys2Proof.Machine Sys2Proof.Safety

/-! ### One step for each event -/

theorem step_empty {s : State} (h : s.port = []) : step s = .next s := by
  simp [step, State.takeEvent, h]

theorem step_powerOn {s : State} {rest : List HostEvent} (h : s.port = .powerOn :: rest) :
    step s = .next { s with port := rest }.powerOn := by
  simp [step, State.takeEvent, h, deliver]

theorem step_simultaneous {s : State} {a b : Bytes} {rest : List HostEvent} (h : s.port = .simultaneous a b :: rest) :
    step s = .refused .simultaneousCommands := by
  simp [step, State.takeEvent, h, deliver]

/-- Settles O9: a step whose event is a frame is `runFrame`, which runs what the decoder answers. -/
theorem stepRunsDecodedCommand : Obligations.StepRunsDecodedCommand := by
  intro s f rest i hport hi
  rw [step_command hport, runFrame_ok hi]

/-- Settles O10: the three heads of the port that are no frame. -/
theorem stepOfOtherEvents : Obligations.StepOfOtherEvents :=
  ⟨fun _ _ h => ⟨_, step_powerOn h, rfl, rfl, rfl, rfl⟩, fun _ _ _ _ h => step_simultaneous h, fun _ h => step_empty h⟩

/-- R52, R95: a frame, legal or not, has a next state. -/
theorem runFrame_answers (f : Bytes) (s : State) : ∃ t, runFrame f s = .next t := by
  cases h : decode f with
  | error e => exact ⟨_, runFrame_error h s⟩
  | ok i =>
    obtain ⟨t, -, ht, -⟩ := everyCommandAnswers i s
    exact ⟨t, (runFrame_ok h s).trans ht⟩

/-- Settles O12: by the event at the head of the port. -/
theorem stepNeverStops : Obligations.StepNeverStops := by
  intro s
  match hport : s.port with
  | [] => exact .inl ⟨_, step_empty hport⟩
  | .command f :: rest => exact .inl (step_command hport ▸ runFrame_answers f _)
  | .powerOn :: rest => exact .inl ⟨_, step_powerOn hport⟩
  | .simultaneous a b :: rest => exact .inr ⟨a, b, rest, rfl⟩

/-! ### The invariant -/

theorem blockInv_of_unconfigured {s : State} (h : s.configured = false) : BlockInv s :=
  fun hc => by simp [h] at hc

theorem blockInv_finish {s : State} {st : Status} {aux : Byte} {items : List Bytes} (h : BlockInv s) :
    BlockInv (s.finish st aux items) :=
  blockInv_congr h rfl rfl rfl rfl rfl rfl

theorem blockInv_withEnc {s : State} {enc : Encoder} (h : BlockInv s)
    (he : EncoderOk s.cfg s.enc → EncoderOk s.cfg enc) : BlockInv (s.withEnc enc) := by
  intro hc
  obtain ⟨hcfg, henc, hdec⟩ := h hc
  exact ⟨hcfg, he henc, hdec⟩

/-- R22, R90: an accepted CONFIGURE meets the invariant, whatever the state was before. -/
theorem blockInv_construct {s : State} {magic : BitVec 32} {mode : BitVec 8} {minb : BitVec 32} {pkt rep : BitVec 16}
    {sblk : BitVec 32} {spkt : BitVec 16} (hv : configValid s.params mode pkt sblk spkt = true) :
    BlockInv (s.construct (configRegs s.params magic mode minb pkt rep sblk spkt)) :=
  fun _ => ⟨⟨hv, rfl, rfl, rfl⟩, encoderOk_empty _ _, decoderOk_empty _ _⟩

/-- R65: BuildBlock answers EMPTY only where it changes nothing. -/
theorem buildBlock_enc_of_empty {cfg : ConfigRegs} {p : Params} {enc : Encoder}
    (h : (buildBlock cfg p enc).result = .empty) : (buildBlock cfg p enc).enc = enc := by
  have h0 : enc.accOffs = [] := by
    by_contra hne
    exact buildBlock_ne_empty hne h
  rw [buildBlock, if_pos h0, Build.skip]

theorem flushed_encoderOk {cfg : ConfigRegs} {p : Params} {enc : Encoder} (he : EncoderOk cfg enc) :
    EncoderOk cfg (buildBlock cfg p enc).enc := by
  by_cases h : (buildBlock cfg p enc).result = .empty
  · rwa [buildBlock_enc_of_empty h]
  · exact buildBlock_encoderOk h

theorem reader_inv {i : Instr} {s t : State} (hi : i.opcode ∈ [Opcode.stamp, .parse, .inspect]) (h : BlockInv s)
    (ht : exec i s = .next t) : BlockInv t := by
  obtain ⟨st, aux, items, h'⟩ := exec_reader (s := s) hi
  cases h'.symm.trans ht
  exact blockInv_finish h

theorem encPushFec_inv {s : State} (h : BlockInv s) (hf : modeFec s.cfg.mode = true) (d : Bytes) :
    BlockInv (encPushFec d s) := by
  unfold encPushFec
  split
  · exact blockInv_finish h
  · next hd =>
    exact blockInv_finish (blockInv_withEnc h fun he => pushed_encoderOk he hf (Nat.le_of_not_gt hd))

theorem encFlushFec_inv {s : State} (h : BlockInv s) : BlockInv (encFlushFec s) :=
  blockInv_finish (blockInv_withEnc h flushed_encoderOk)

theorem decFeedState_inv {s : State} (h : BlockInv s) (C : Bytes) : BlockInv (decFeedState C s) := by
  refine blockInv_finish (s := s.withDec ..) ?_
  intro hc
  obtain ⟨hcfg, henc, hdec⟩ := h hc
  exact ⟨hcfg, henc, feedCoded_decoderOk hdec⟩

/-- R29: every command keeps the invariant. -/
theorem exec_inv {i : Instr} {s t : State} (h : BlockInv s) (ht : exec i s = .next t) : BlockInv t := by
  have check {u : State} (hnext : s.ifConfigured u = .next t) (hu : BlockInv u) : BlockInv t :=
    ifConfigured_ind hnext hu (blockInv_finish h)
  cases i with
  | configure magic mode minb pkt rep sblk spkt =>
    rcases exec_configure_cases magic mode minb pkt rep sblk spkt s with ⟨hv, h'⟩ | ⟨-, h'⟩ <;> cases ht.symm.trans h'
    · exact blockInv_finish (blockInv_construct hv)
    · exact blockInv_of_unconfigured rfl
  | stamp | parse | inspect => exact reader_inv (by simp [Instr.opcode]) h ht
  | encPush d =>
    refine check ht ?_
    split
    · next hf => exact encPushFec_inv h hf d
    · exact blockInv_finish h
  | encFlush =>
    refine check ht ?_
    split
    · exact encFlushFec_inv h
    · exact blockInv_finish h
  | decFeed C => exact check ht (decFeedState_inv h C)
  | rxPacket b =>
    refine check ht ?_
    rcases rxPacketState_cases b s with ⟨st, -, h'⟩ | ⟨rem, h'⟩ | ⟨rem, h'⟩ <;> rw [h']
    · exact blockInv_finish h
    · exact blockInv_finish h
    · exact decFeedState_inv h rem

/-- Settles O17: CONFIGURED is 0 at reset. -/
theorem invariantAtReset : Obligations.InvariantAtReset :=
  blockInv_of_unconfigured rfl

/-- Settles O18: by the event; a legal frame's command keeps the invariant (`exec_inv`), and no other event needs it. -/
theorem stepKeepsInvariant : Obligations.StepKeepsInvariant := by
  intro s t hs ht
  match hport : s.port with
  | [] => cases ht.symm.trans (step_empty hport); exact hs
  | .command f :: rest =>
    rw [step_command hport] at ht
    have hs' : BlockInv { s with port := rest } := blockInv_congr hs rfl rfl rfl rfl rfl rfl
    cases hf : decode f with
    | error e => cases ht.symm.trans (runFrame_error hf _); exact blockInv_finish hs'
    | ok i => exact exec_inv hs' ((runFrame_ok hf _).symm.trans ht)
  | .powerOn :: rest => cases ht.symm.trans (step_powerOn hport); exact blockInv_of_unconfigured rfl
  | .simultaneous a b :: rest => cases ht.symm.trans (step_simultaneous hport)

/-! ### Storage -/

/-- R32, R89: sessions and markers have distinct identifiers in one window. -/
theorem decoderOk_count {p : Params} {n : Nat} {dec : Decoder} (h : DecoderOk p n dec) :
    dec.sess.length + dec.decoded.length ≤ 127 := by
  obtain ⟨hsess, hdecoded, hdisj, c, hwin⟩ := h
  have hkeys : (storeKeys dec.sess).Nodup := storeWf_keys_nodup hsess
  have hids : dec.decoded.Nodup := hdecoded.imp fun hlt heq => by simp [heq] at hlt
  have hnd : (storeKeys dec.sess ++ dec.decoded).Nodup := by
    refine List.nodup_append.2 ⟨hkeys, hids, fun x hx y hy hxy => ?_⟩
    obtain ⟨q, hq, rfl⟩ := List.mem_map.1 hx
    obtain ⟨-, -, hnot⟩ := hdisj q hq
    exact hnot (hxy ▸ hy)
  have hlen := length_le_of_inWindow hnd fun x hx => hwin x (List.mem_append.1 hx)
  rwa [List.length_append, storeKeys_length] at hlen

/-- Settles O19: the cache by `decoderOk_count`, the buffer by the invariant itself. -/
theorem storageBounds : Obligations.StorageBounds := by
  intro s hs hc
  obtain ⟨-, ⟨hdata, hoffs, -⟩, hdec⟩ := hs hc
  exact ⟨decoderOk_count hdec, hdata, hoffs⟩

end Sys2Proof.Laws
end

section
/-! SUPPORT. The control commands (R90, R91) and the wire framing commands (R58 to R60), outcome by outcome. -/

namespace Sys2Proof.Laws

open Sys2Proof.Machine Sys2Proof.Safety

/-! ### CONFIGURE -/

/-- R90: what CONFIGURE checks, with the ceiling written as a product. -/
theorem configValid_iff {p : Params} {mode : BitVec 8} {pkt spkt : BitVec 16} {sblk : BitVec 32} :
    configValid p mode pkt sblk spkt = true ↔ mode.toNat < 4 ∧
      (modeFec mode = true → modeDynamic mode = true → p.symbolOverhead < pkt.toNat) ∧
      (modeFec mode = true → modeDynamic mode = false →
        1 ≤ sblk.toNat ∧ 1 ≤ spkt.toNat ∧ sblk.toNat ≤ p.kMax * spkt.toNat) := by
  have hceil (h : 1 ≤ spkt.toNat) := ceilDiv_le_iff (a := sblk.toNat) h p.kMax
  unfold configValid
  rw [modeReservedClear_eq]
  cases modeFec mode <;> cases modeDynamic mode <;> simp +contextual [and_assoc, hceil]

/-- Settles O20: the operands pass `configValid`, and the registers written are those of `configRegs`. -/
theorem configureAccepts : Obligations.ConfigureAccepts := by
  intro s magic mode minb pkt rep sblk spkt hmode hdyn hstat
  have hv : configValid s.params mode pkt sblk spkt = true := configValid_iff.2 ⟨hmode, hdyn, hstat⟩
  rcases exec_configure_cases magic mode minb pkt rep sblk spkt s with ⟨-, h⟩ | ⟨hn, -⟩
  · exact h
  · simp [hv] at hn

/-- Settles O21: each of the three hypotheses contradicts one clause of `configValid_iff`. -/
theorem configureRejects : Obligations.ConfigureRejects := by
  intro s magic mode minb pkt rep sblk spkt hbad
  rcases exec_configure_cases magic mode minb pkt rep sblk spkt s with ⟨hv, -⟩ | ⟨-, h⟩
  · obtain ⟨hmode, hdyn, hstat⟩ := configValid_iff.1 hv
    rcases hbad with h | ⟨hf, hd, h⟩ | ⟨hf, hd, h⟩
    · omega
    · have := hdyn hf hd
      omega
    · have := hstat hf hd
      omega
  · exact ⟨_, h, rfl, rfl, rfl, rfl⟩

/-! ### INSPECT -/

theorem exec_inspect {s : State} (hc : s.configured = true) (id : BlockId) :
    exec (.inspect id) s = .next (s.finish .ok
      (inspectAux (storeGet id s.dec.sess).isSome (decide (id ∈ s.dec.decoded))) [inspectItem id s]) :=
  ifConfigured_true hc

/-- Settles O23: the item and AUX with the identifier's session looked up. -/
theorem inspectSummary : Obligations.InspectSummary := by
  intro id s hc
  rw [exec_inspect hc id]
  refine ⟨fun e he => ?_, fun he => ?_⟩ <;> by_cases hd : id ∈ s.dec.decoded <;>
    simp [State.finish, inspectItem, inspectAux, he, hd]

theorem inspectItem_length (id : BlockId) (s : State) : (inspectItem id s).length = 14 := by
  simp [inspectItem]

/-- R91: AUX is 0x03 exactly where an identifier has a session and a marker. -/
theorem inspectAux_eq_three_iff {live decoded : Bool} :
    inspectAux live decoded = 0x03 ↔ live = true ∧ decoded = true := by
  cases live <;> cases decoded <;> decide

/-- R91: bytes 4 and 5 of the summary are the two counts of the cache, where they fit a byte. -/
theorem inspectItem_counts {id : BlockId} {s : State} (hs : s.dec.sess.length < 256)
    (hd : s.dec.decoded.length < 256) :
    unbe (slice (inspectItem id s) 4 5) = s.dec.sess.length ∧
      unbe (slice (inspectItem id s) 5 6) = s.dec.decoded.length := by
  constructor
  · simp only [inspectItem, List.append_assoc]
    rw [← List.append_assoc (be 1 _), ← List.append_assoc [s.enc.id]]
    exact unbe_slice_mid _ _ 1 _ 4 5 (by simp) rfl hs
  · simp only [inspectItem, List.append_assoc]
    rw [← List.append_assoc (be 2 _), ← List.append_assoc (be 1 _), ← List.append_assoc [s.enc.id]]
    exact unbe_slice_mid _ _ 1 _ 5 6 (by simp) rfl hd

/-- Settles O24: sessions and markers are disjoint, and both counts are below 128. -/
theorem inspectIsExact : Obligations.InspectIsExact := by
  intro id s hc hs
  obtain ⟨-, -, hdec⟩ := hs hc
  have hcount := decoderOk_count hdec
  obtain ⟨-, -, hdisj, -⟩ := hdec
  have haux : inspectAux (storeGet id s.dec.sess).isSome (decide (id ∈ s.dec.decoded)) ≠ 0x03 := by
    rw [ne_eq, inspectAux_eq_three_iff, decide_eq_true_iff]
    rintro ⟨hlive, hmem⟩
    obtain ⟨e, he⟩ := Option.isSome_iff_exists.1 hlive
    obtain ⟨-, -, hnot⟩ := hdisj _ (storeGet_mem he)
    exact hnot hmem
  obtain ⟨hsess, hdecoded⟩ := inspectItem_counts (id := id) (s := s) (by omega) (by omega)
  exact ⟨_, _, exec_inspect hc id, haux, inspectItem_length id s, hsess, hdecoded⟩

/-! ### STAMP, PARSE, RX_PACKET -/

/-- Settles O25: STAMP's header register, which the invariant ties to MAGIC (`stampHeader_eq`). -/
theorem stampPrependsHeader : Obligations.StampPrependsHeader := by
  intro fec p s hc
  refine ⟨?_, fun hs => ?_⟩
  · rw [← apply_ite WireHeader.bytes]
    exact ifConfigured_true hc
  · rw [← apply_ite WireHeader.bytes, stampHeader_eq hs hc fec, wireHeader_bytes]

/-- Settles O26: `parseWire_cases` case by case; the flag byte is PARSE's AUX. -/
theorem parseOutcomes : Obligations.ParseOutcomes := by
  intro b s hc
  obtain ⟨hshort, hforeign, hbad, hplain, hfec⟩ := parseWire_cases s.cfg.magic b
  refine ⟨fun h => exec_parse_drop hc (hshort h), fun h hm => exec_parse_drop hc (hforeign h hm),
    fun h hm h0 h1 => exec_parse_drop hc (hbad h hm h0 h1), fun h hm hflag => ?_⟩
  rcases hflag with h0 | h1
  · rw [h0]; exact exec_parse_ok hc (hplain h hm h0)
  · rw [h1]; exact exec_parse_ok hc (hfec h hm h1)

/-- R60: a plain packet is delivered. -/
theorem exec_rxPacket_plain {s : State} (hc : s.configured = true) {b rem : Bytes}
    (h : parseWire s.cfg.magic b = .ok (false, rem)) : exec (.rxPacket b) s = .next (s.finish .ok 0 [rem]) := by
  rw [exec_rxPacket hc, rxPacketState, h]

/-- R60: a FEC packet is dropped with FEC disabled. -/
theorem exec_rxPacket_nofec {s : State} (hc : s.configured = true) {b rem : Bytes}
    (h : parseWire s.cfg.magic b = .ok (true, rem)) (hf : modeFec s.cfg.mode = false) :
    exec (.rxPacket b) s = .next (s.raise .dropNofec 0) := by
  rw [exec_rxPacket hc, rxPacketState, h]
  simp [hf]

/-- R60: a FEC packet is a DEC_FEED of what stands behind its header. -/
theorem exec_rxPacket_fec {s : State} (hc : s.configured = true) {b rem : Bytes}
    (h : parseWire s.cfg.magic b = .ok (true, rem)) (hf : modeFec s.cfg.mode = true) :
    exec (.rxPacket b) s = exec (.decFeed rem) s := by
  rw [exec_rxPacket hc, exec_decFeed hc, rxPacketState, h]
  simp [hf]

/-- Settles O27: `parseWire_cases` case by case, a FEC packet once more by FEC_EN. -/
theorem rxPacketOutcomes : Obligations.RxPacketOutcomes := by
  intro b s hc
  obtain ⟨hshort, hforeign, hbad, hplain, hfec⟩ := parseWire_cases s.cfg.magic b
  exact ⟨fun h => exec_rxPacket_drop hc (hshort h), fun h hm => exec_rxPacket_drop hc (hforeign h hm),
    fun h hm h0 h1 => exec_rxPacket_drop hc (hbad h hm h0 h1), fun h hm h0 => exec_rxPacket_plain hc (hplain h hm h0),
    fun h hm h1 hf => exec_rxPacket_nofec hc (hfec h hm h1) hf,
    fun h hm h1 hf => exec_rxPacket_fec hc (hfec h hm h1) hf⟩

end Sys2Proof.Laws
end

section
/-! SUPPORT. Response frames (R53), and the frames that the assembler makes (R56, R57). -/

namespace Sys2Proof.Laws

open Sys2Proof.Machine

/-- Settles O6: status and AUX are one byte each, the count is four bytes, and `itemFrames_injective` takes the items
apart. -/
theorem responseFrameUnambiguous : Obligations.ResponseFrameUnambiguous := by
  rintro ⟨st, aux, items⟩ ⟨st', aux', items'⟩ hn hn' hitems hitems' h
  simp only [Response.frame, List.cons.injEq] at h
  obtain ⟨hcode, rfl, h⟩ := h
  obtain rfl := statusCode_injective hcode
  obtain ⟨hcount, hrest⟩ := List.append_inj h (by simp)
  have hlen : items.length = items'.length := by
    have := congrArg unbe hcount
    rwa [unbe_be_of_lt hn, unbe_be_of_lt hn'] at this
  obtain ⟨rfl, -⟩ := itemFrames_injective items items' [] [] hlen hitems hitems' (by simpa using hrest)
  rfl

/-- Settles O7: closed evaluations of `Status.code` and `Response.frame`. -/
theorem responseFrameLayout : Obligations.ResponseFrameLayout := by
  unfold Obligations.ResponseFrameLayout
  decide

/-! ### The assembler -/

theorem asmBytes_wellFormed {env : AsmEnv} {mk : Bytes → Instr} {args : List Token} {i : Instr}
    (hmk : ∀ b, (mk b).wellFormed = decide (b.length ≤ 65535)) (h : asmBytes env mk args = .ok i) :
    i.wellFormed = true := by
  match args with
  | [t] =>
    obtain ⟨b, hb, rfl⟩ := except_map_ok h
    simpa [hmk] using bytesOperand_length hb
  | [] => cases h
  | _ :: _ :: _ => cases h

theorem asmConfigure_wellFormed {args : List Token} {i : Instr} (h : asmConfigure args = .ok i) :
    i.wellFormed = true := by
  unfold asmConfigure at h
  split at h
  · obtain ⟨_, -, h⟩ := except_bind_ok h
    obtain ⟨_, -, h⟩ := except_bind_ok h
    obtain ⟨_, -, h⟩ := except_bind_ok h
    obtain ⟨_, -, h⟩ := except_bind_ok h
    obtain ⟨_, -, h⟩ := except_bind_ok h
    obtain ⟨_, -, h⟩ := except_bind_ok h
    obtain ⟨_, -, h⟩ := except_bind_ok h
    cases h
    rfl
  · cases h

theorem asmRx_wellFormed {env : AsmEnv} : ∀ {args : List Token} {is : List Instr}, asmRx env args = .ok is →
    ∀ i ∈ is, i.wellFormed = true
  | [], _, h => by cases h
  | [t], is, h => by
    obtain ⟨b, hb, rfl⟩ := except_map_ok h
    simpa [Instr.wellFormed] using bytesOperand_length hb
  | t :: t' :: ts, is, h => by
    cases t' with
    | comma =>
      obtain ⟨b, hb, h⟩ := except_bind_ok h
      obtain ⟨js, hjs, h⟩ := except_bind_ok h
      cases h
      intro i hi
      rcases List.mem_cons.1 hi with rfl | hi
      · simpa [Instr.wellFormed] using bytesOperand_length hb
      · exact asmRx_wellFormed hjs i hi
    | word | equals | literal | newline => cases h

theorem asmCommand_wellFormed {env : AsmEnv} {op : String} {args : List Token} {is : List Instr}
    (h : asmCommand env op args = .ok is) : ∀ i ∈ is, i.wellFormed = true := by
  have single {x : Except AsmError Instr} (hx : ∀ i, x = .ok i → i.wellFormed = true) (h : x.map ([·]) = .ok is) :
      ∀ i ∈ is, i.wellFormed = true := by
    obtain ⟨i, hi, rfl⟩ := except_map_ok h
    simpa using hx i hi
  have tail {mk : Bytes → Instr} (hmk : ∀ b, (mk b).wellFormed = decide (b.length ≤ 65535)) :=
    single fun i => asmBytes_wellFormed (env := env) (args := args) (i := i) hmk
  unfold asmCommand at h
  split at h
  · exact single (fun _ => asmConfigure_wellFormed) h
  split at h
  · split at h
    · obtain ⟨fec, -, h⟩ := except_bind_ok h
      obtain ⟨b, hb, h⟩ := except_bind_ok h
      cases h
      simpa [Instr.wellFormed] using bytesOperand_length hb
    · cases h
  split at h
  · exact tail (fun _ => rfl) h
  split at h
  · exact tail (fun _ => rfl) h
  split at h
  · obtain ⟨i, hi, rfl⟩ := except_map_ok h
    simpa [Instr.wellFormed] using asmBytes_wellFormed (fun _ => rfl) hi
  split at h
  · split at h
    · cases h
      simp [Instr.wellFormed]
    · cases h
  split at h
  · exact tail (fun _ => rfl) h
  split at h
  · exact tail (fun _ => rfl) h
  split at h
  · exact asmRx_wellFormed h
  split at h
  · split at h
    · obtain ⟨id, -, rfl⟩ := except_map_ok h
      simp [Instr.wellFormed]
    · cases h
  · cases h

theorem asmLine_wellFormed {env env' : AsmEnv} {line : List Token} {is : List Instr}
    (h : asmLine env line = .ok (env', is)) : ∀ i ∈ is, i.wellFormed = true := by
  unfold asmLine at h
  split at h
  · cases h; simp
  · split at h
    · split at h
      · obtain ⟨b, -, h⟩ := except_map_ok h
        cases h; simp
      · cases h
    · obtain ⟨js, hjs, h⟩ := except_map_ok h
      cases h
      exact asmCommand_wellFormed hjs
  · cases h

theorem asmLines_wellFormed {env : AsmEnv} {lines : List (List Token)} {is : List Instr}
    (h : asmLines env lines = .ok is) : ∀ i ∈ is, i.wellFormed = true := by
  induction lines generalizing env is with
  | nil => cases h; simp
  | cons l ls ih =>
    obtain ⟨⟨env', js⟩, hjs, h⟩ := except_bind_ok h
    obtain ⟨rest, hrest, h⟩ := except_bind_ok h
    cases h
    intro i hi
    rcases List.mem_append.1 hi with hi | hi
    · exact asmLine_wellFormed hjs i hi
    · exact ih hrest i hi

/-- Settles O8: every line stands for well-formed commands, which `decodeInvertsEncode` decodes; the expansions are
R57's, mnemonic by mnemonic. -/
theorem assembledFramesAreLegal : Obligations.AssembledFramesAreLegal := by
  refine ⟨fun text frames h f hf => ?_, fun env t b hb => ?_⟩
  · obtain ⟨tokens, -, h⟩ := except_bind_ok h
    obtain ⟨commands, hcommands, h⟩ := except_bind_ok h
    cases h
    obtain ⟨i, hi, rfl⟩ := List.mem_map.1 hf
    have hwf := asmLines_wellFormed hcommands i hi
    exact ⟨i, hwf, rfl, decodeInvertsEncode i hwf⟩
  · have hone (mk : Bytes → Instr) : asmBytes env mk [t] = .ok (mk b) := by simp [asmBytes, hb, Except.map]
    refine ⟨?_, ?_, ?_, ?_, fun ts is h => ?_, fun name => ?_⟩
    · simp [asmCommand, hone, Except.map]
    · simp [asmCommand, hone, Except.map]
    · simp [asmCommand, hone, Except.map]
    · simp [asmCommand, asmRx, hb, Except.map]
    · have hts : asmRx env ts = .ok is := by simpa [asmCommand] using h
      simp [asmCommand, asmRx, hb, hts, bind, Except.bind, pure, Except.pure]
    · simp [asmLine, hb, Except.map]

end Sys2Proof.Laws
end

section
/-! SUPPORT. The encoder's commands (R63 to R69): each is one or two BuildBlock calls, and BuildBlock builds or
drops. -/

namespace Sys2Proof.Laws

open Sys2Proof.Machine Sys2Proof.Safety

/-! ### BuildBlock -/

theorem buildBlock_empty {cfg : ConfigRegs} {p : Params} {enc : Encoder} (h : enc.accOffs = []) :
    buildBlock cfg p enc = Build.skip enc := by
  rw [buildBlock, if_pos h]

/-- R65: the three reasons to drop a block. -/
theorem buildBlock_drop {cfg : ConfigRegs} {p : Params} {enc : Encoder} (h0 : enc.accOffs ≠ [])
    (h : ∀ B, blockPayload cfg enc = some B → p.kMax < ceilDiv B.length cfg.symT.toNat ∨
      p.esiLimit < ceilDiv B.length cfg.symT.toNat + cfg.repairCount.toNat) :
    buildBlock cfg p enc = Build.drop enc := by
  rw [buildBlock, if_neg h0]
  cases hB : blockPayload cfg enc with
  | none => rfl
  | some B => exact if_pos (h B hB)

/-- R49: the payload of a Dynamic block is data and directory. -/
theorem blockPayload_dynamic {cfg : ConfigRegs} (hd : modeDynamic cfg.mode = true) (enc : Encoder) :
    blockPayload cfg enc = some (enc.accData ++ makeDir enc.accOffs) := by
  simp [blockPayload, hd]

/-- R49: the payload of a Static block is data, `n` zeros and directory where they fill the block. -/
theorem blockPayload_static {cfg : ConfigRegs} (hd : modeDynamic cfg.mode = false) {enc : Encoder} {n : Nat}
    (hn : enc.accData.length + n + (2 * enc.accOffs.length + 1) = cfg.staticBlockSize.toNat) :
    blockPayload cfg enc = some (enc.accData ++ zeros n ++ makeDir enc.accOffs) := by
  have hpad : cfg.staticBlockSize.toNat - enc.accData.length - (makeDir enc.accOffs).length = n := by
    rw [makeDir_length]; omega
  simp only [blockPayload, hd, hpad, Bool.false_eq_true, if_false]
  rw [if_neg (by rw [makeDir_length]; omega)]

/-- R49: how long a block payload is, in both modes, and that a Static one has room for its data and directory. -/
theorem blockPayload_length {cfg : ConfigRegs} {enc : Encoder} {B : Bytes} (h : blockPayload cfg enc = some B) :
    B.length = (if modeDynamic cfg.mode then enc.accData.length + 2 * enc.accOffs.length + 1
      else cfg.staticBlockSize.toNat) ∧ enc.accData.length + 2 * enc.accOffs.length + 1 ≤ B.length := by
  cases hd : modeDynamic cfg.mode with
  | true =>
    rw [blockPayload_dynamic hd, Option.some.injEq] at h
    have hlen : B.length = enc.accData.length + 2 * enc.accOffs.length + 1 := by
      rw [← h, List.length_append, makeDir_length]; omega
    exact ⟨hlen, hlen.ge⟩
  | false =>
    obtain ⟨pad, hB, hstat⟩ := blockPayload_cases h
    refine ⟨hstat hd, ?_⟩
    rw [hB, List.length_append, List.length_append, makeDir_length]; omega

/-- R46: the Dynamic FEC header, byte by byte. -/
theorem codedPacket_dynamic {cfg : ConfigRegs} (hd : modeDynamic cfg.mode = true) (F : Nat) (id : BlockId) (e : Nat)
    (sym : Bytes) : codedPacket cfg F id e sym = cfg.hdrFec.bytes ++ be 5 F ++ [0x00] ++ be 2 cfg.symT.toNat ++
      [0x01, 0x00, 0x01, 0x01] ++ [id] ++ be 3 e ++ sym := by
  have hN : be 2 1 = [0x00, 0x01] := rfl
  simp [codedPacket, packetExtension, hd, dynHeader, hN]

theorem codedPacket_static {cfg : ConfigRegs} (hd : modeDynamic cfg.mode = false) (F : Nat) (id : BlockId) (e : Nat)
    (sym : Bytes) : codedPacket cfg F id e sym = cfg.hdrFec.bytes ++ [id] ++ be 3 e ++ sym := by
  simp [codedPacket, packetExtension, hd]

/-! ### ENC_FLUSH -/

theorem buildStatus_one (r : BuildResult) : buildStatus [r] = if r = .oversize then .encOversize else .ok := by
  simp only [buildStatus, List.mem_singleton, eq_comm]

theorem buildStatus_two (r r' : BuildResult) :
    buildStatus [r, r'] = if r = .oversize ∨ r' = .oversize then .encOversize else .ok := by
  simp only [buildStatus, List.mem_cons, List.not_mem_nil, or_false, eq_comm]

/-- R68: ENC_FLUSH with FEC enabled answers what BuildBlock does. -/
theorem exec_encFlush_build {s : State} (hc : s.configured = true) (hf : modeFec s.cfg.mode = true) {b : Build}
    (hb : buildBlock s.cfg s.params s.enc = b) : exec .encFlush s = .next ((s.withEnc b.enc).finish
      (if b.result = .oversize then .encOversize else .ok) (if b.result = .built then 1 else 0) b.packets) := by
  have haux : BitVec.ofNat 8 b.count = if b.result = .built then 1 else 0 := by
    rw [Build.count, apply_ite (BitVec.ofNat 8)]
    rfl
  rw [exec_encFlush hc, if_pos hf, encFlushFec, hb, buildStatus_one, haux]

/-- Settles O36: FEC disabled is ENC_FLUSH's own case, and BuildBlock of an empty buffer does nothing. -/
theorem flushOfNothing : Obligations.FlushOfNothing := by
  intro s hc h
  cases hf : modeFec s.cfg.mode with
  | false => rw [exec_encFlush hc, hf]; rfl
  | true => exact exec_encFlush_build hc hf (buildBlock_empty (h.resolve_left (by simpa [modeFec] using hf)))

/-- Settles O33: `buildBlock_built` with the Dynamic payload, and the packets by ESI. -/
theorem flushBuildsDynamicBlock : Obligations.FlushBuildsDynamicBlock := by
  intro s B T k r hc hf hd h0 hB hT hr hTpos hlo hhi hk hesi
  subst hT hr
  have hpayload : blockPayload s.cfg s.enc = some B := by
    rw [blockPayload_dynamic hd, hB, makeDir, be_one, List.append_assoc]
  have hbuilt := buildBlock_built h0 hpayload (blockPayload_pos hpayload) hTpos hlo hhi hk hesi
  have hdyn := fun e sym => codedPacket_dynamic hd B.length s.enc.id e sym
  simp only [blockPackets_eq, hdyn] at hbuilt
  exact exec_encFlush_build hc hf hbuilt

/-- Settles O34: `buildBlock_built` with the padded payload, and the packets by ESI. -/
theorem flushBuildsStaticBlock : Obligations.FlushBuildsStaticBlock := by
  intro s B T k r n hc hf hd h0 hn hB hT hr hTpos hlo hhi hk hesi
  subst hT hr
  have hpayload : blockPayload s.cfg s.enc = some B := by
    rw [blockPayload_static hd hn, hB, makeDir, be_one, List.append_assoc _ _ [_]]
  have hbuilt := buildBlock_built h0 hpayload (blockPayload_pos hpayload) hTpos hlo hhi hk hesi
  have hstat := fun e sym => codedPacket_static hd B.length s.enc.id e sym
  simp only [blockPackets_eq, hstat] at hbuilt
  exact exec_encFlush_build hc hf hbuilt

/-- Settles O35: a payload, where there is one, has the length F and so k source symbols, and each of the three
hypotheses makes BuildBlock drop it. -/
theorem flushDropsOversizeBlock : Obligations.FlushDropsOversizeBlock := by
  intro s F k hc hf h0 hTpos hF hlo hhi hover
  have hdrop : buildBlock s.cfg s.params s.enc = Build.drop s.enc := by
    refine buildBlock_drop h0 fun B hB => ?_
    obtain ⟨hlen, hroom⟩ := blockPayload_length hB
    have hBF : B.length = F := hlen.trans hF.symm
    have hk : ceilDiv B.length s.cfg.symT.toNat = k := by
      rw [hBF]
      exact ceilDiv_unique hTpos (by omega) hlo hhi
    rw [hk]
    rcases hover with ⟨-, hsmall⟩ | hover
    · omega
    · exact hover
  exact exec_encFlush_build hc hf hdrop

/-! ### ENC_PUSH -/

/-- Settles O31: the branch of ENC_PUSH with FEC disabled. -/
theorem pushWithFecDisabled : Obligations.PushWithFecDisabled := by
  intro d s hc hf
  have hf : modeFec s.cfg.mode = false := hf
  rw [exec_encPush hc, hf]
  rfl

/-- R67: ENC_PUSH with FEC enabled, for every datagram that a frame can carry. -/
theorem exec_encPush_fec {s : State} (hc : s.configured = true) (hf : modeFec s.cfg.mode = true) {d : Bytes}
    (hd : d.length ≤ 65535) {pre post : Build} (hpre : preBuild s.cfg s.params s.enc d = pre)
    (hpost : postBuild s.cfg s.params (pre.enc.append d) = post) :
    exec (.encPush d) s = .next ((s.withEnc post.enc).finish
      (if pre.result = .oversize ∨ post.result = .oversize then .encOversize else .ok)
      (BitVec.ofNat 8 (pre.count + post.count)) (pre.packets ++ post.packets)) := by
  have hlen : ¬ d.length > Config.maxData := Nat.not_lt.2 hd
  subst hpre hpost
  rw [← buildStatus_two, exec_encPush hc, if_pos hf, encPushFec, if_neg hlen]

/-- Settles O32: the two builds are `preBuild` and `postBuild`, and ENC_FLUSH answers a build by
`exec_encFlush_build`. -/
theorem pushSequence : Obligations.PushSequence := by
  intro d s hc hf hd
  refine ⟨fun enc => exec_encFlush_build (s := { s with enc := enc }) hc hf rfl,
    preBuild s.cfg s.params s.enc d, postBuild s.cfg s.params ((preBuild s.cfg s.params s.enc d).enc.append d),
    rfl, ?_, exec_encPush_fec hc hf hd rfl rfl⟩
  rw [← List.length_append]
  rfl

/-! ### ENC_ID and the packets -/

/-- R24: ENC_ID goes up by the response's AUX. -/
def EncIdAdvances (s t : State) : Prop :=
  ∀ r, t.response = some r → t.enc.id = s.enc.id + r.aux

theorem encIdAdvances_finish (s : State) (st : Status) (items : List Bytes) :
    EncIdAdvances s (s.finish st 0 items) := by
  intro r hr
  cases hr
  simp

theorem encIdAdvances_encPushFec (d : Bytes) (s : State) : EncIdAdvances s (encPushFec d s) := by
  unfold encPushFec
  split
  · exact encIdAdvances_finish s .encOversize []
  · intro r hr
    cases hr
    have happend (enc : Encoder) : (enc.append d).id = enc.id := rfl
    simp only [finish_enc, withEnc_enc, postBuild_id, happend, preBuild_id, BitVec.ofNat_add, BitVec.add_assoc]

theorem encIdAdvances_encFlushFec (s : State) : EncIdAdvances s (encFlushFec s) := by
  intro r hr
  cases hr
  exact buildBlock_id s.cfg s.params s.enc

/-- Settles O37: each BuildBlock call adds to ENC_ID what it adds to AUX, and every other path answers AUX 0. -/
theorem encIdCountsBuiltBlocks : Obligations.EncIdCountsBuiltBlocks := by
  suffices hadv : ∀ i s t, i.opcode ∈ [Opcode.encPush, .encFlush] → exec i s = .next t → EncIdAdvances s t from
    fun i s t r hi h hr => hadv i s t hi h r hr
  intro i s t hi h
  have check {u : State} (hnext : s.ifConfigured u = .next t) (hu : EncIdAdvances s u) : EncIdAdvances s t :=
    ifConfigured_ind hnext hu (encIdAdvances_finish s _ _)
  cases i with
  | encPush d =>
    refine check h ?_
    split
    · exact encIdAdvances_encPushFec d s
    · exact encIdAdvances_finish s _ _
  | encFlush =>
    refine check h ?_
    split
    · exact encIdAdvances_encFlushFec s
    · exact encIdAdvances_finish s _ _
  | configure | stamp | parse | decFeed | rxPacket | inspect => simp [Instr.opcode] at hi

theorem mem_preBuild_packets {cfg : ConfigRegs} {p : Params} {enc : Encoder} {d x : Bytes}
    (h : x ∈ (preBuild cfg p enc d).packets) : x ∈ (buildBlock cfg p enc).packets := by
  unfold preBuild at h
  split at h
  · exact h
  · cases h

theorem mem_postBuild_packets {cfg : ConfigRegs} {p : Params} {enc : Encoder} {x : Bytes}
    (h : x ∈ (postBuild cfg p enc).packets) : x ∈ (buildBlock cfg p enc).packets := by
  unfold postBuild at h
  split at h
  · exact h
  · cases h

/-- R65: every packet that an encoder's command emits with FEC enabled is one of a block that it built. -/
theorem encoder_items {i : Instr} {s t : State} {r : Response} (hc : s.configured = true)
    (hf : modeFec s.cfg.mode = true) (hi : i.opcode ∈ [Opcode.encPush, .encFlush]) (h : exec i s = .next t)
    (hr : t.response = some r) {x : Bytes} (hx : x ∈ r.items) :
    ∃ enc, x ∈ (buildBlock s.cfg s.params enc).packets := by
  cases i with
  | encPush d =>
    by_cases hd : d.length ≤ 65535
    · cases h.symm.trans (exec_encPush_fec hc hf hd rfl rfl)
      cases hr
      rcases List.mem_append.1 hx with hx | hx
      · exact ⟨_, mem_preBuild_packets hx⟩
      · exact ⟨_, mem_postBuild_packets hx⟩
    · rw [exec_encPush hc, if_pos hf, encPushFec, if_pos (show d.length > Config.maxData from Nat.not_le.1 hd)] at h
      cases h
      cases hr
      cases hx
  | encFlush =>
    cases h.symm.trans (exec_encFlush_build hc hf rfl)
    cases hr
    exact ⟨_, hx⟩
  | configure | stamp | parse | decFeed | rxPacket | inspect => simp [Instr.opcode] at hi

/-- Settles O38: the packets of one block have one length (`buildBlock_packet_length`), and no others are emitted. -/
theorem packetsHaveOneLength : Obligations.PacketsHaveOneLength := by
  intro i s t r hs hc hf hi h hr x hx
  obtain ⟨hcfg, -, -⟩ := hs hc
  obtain ⟨enc, hx⟩ := encoder_items hc hf hi h hr hx
  exact buildBlock_packet_length hcfg hf x hx

/-! ### The code -/

/-- Settles O41: the four laws of the two code operations; where law 2 can be met on the first `m` symbols,
`codeDecode_genuine`, and where the map belongs to one block, `codeDecode_determined`. -/
theorem codeLaws : Obligations.CodeLaws := by
  intro p T k hT hT' hk hk'
  have hrange : p.inRange T k := ⟨hT, hT', hk, hk'⟩
  refine ⟨fun P e hP he => ⟨codeSym_length hrange hP he, codeSym_source⟩, ?_, ?_⟩
  · intro n F M P hlo hhi hP hwf hlen hM hlaw
    have hesi := fun q hq => (hM q hq).1
    have hgen := fun q hq => (hM q hq).2
    rcases hlaw with ⟨m, hm, hposs, hbelow⟩ | hdet
    · exact codeDecode_genuine hrange hlo hhi hP hwf hlen hm hbelow hgen (.inl hposs)
    · exact codeDecode_determined hrange hlo hhi hP hwf hlen hesi hgen hdet
  · intro n F M x hlo hhi hlen hM hx
    exact codeDecode_length hrange hlo hhi hlen hM hx

end Sys2Proof.Laws
end

section
/-! SUPPORT. DEC_FEED (R71 to R82): the fields it reads, the session a packet belongs to, and what an accepted symbol
leaves, with the cache's view of it (R84 to R87). -/

namespace Sys2Proof.Laws

open Sys2Proof.Machine Sys2Proof.Safety

/-! ### The fields of a coded remainder -/

/-- Settles O42: `codedFields_dyn`, `codedFields_static` and `codedFields_none_iff`. -/
theorem codedRemainderLayout : Obligations.CodedRemainderLayout :=
  ⟨fun _ F T e res Z N1 N2 Al id sym hd hF hT he => codedFields_dyn hd F T e res Z N1 N2 Al id sym hF hT he,
    fun _ e id sym hd he => codedFields_static hd e id sym he, fun cfg C => (codedFields_none_iff cfg C).symm⟩

/-! ### The session of a packet -/

theorem sessionFor_live {p : Params} {dec : Decoder} {c : Coded} {e : Session} (h : storeGet c.id dec.sess = some e) :
    sessionFor p dec c = some e := by
  rw [sessionFor, h]

theorem sessionFor_new {p : Params} {dec : Decoder} {c : Coded} (h : storeGet c.id dec.sess = none) :
    sessionFor p dec c = newSession p c.F c.T := by
  rw [sessionFor, h]

/-- Settles O47: the live session, or `newSession` with the ceiling as its K. -/
theorem sessionParameters : Obligations.SessionParameters := by
  intro p dec c
  refine ⟨fun e => sessionFor_live, fun h hbad => ?_, fun h hT hF hmax => ?_⟩
  · rw [sessionFor_new h, newSession_eq_none_iff]
    exact hbad
  · have hlo := pred_ceilDiv_mul_lt hF hT
    have hhi := le_ceilDiv_mul (a := c.F) hT
    have hk := (ceilDiv_le_iff hT p.kMax).2 hmax
    exact ⟨ceilDiv c.F c.T, hlo, hhi, hk, (sessionFor_new h).trans (newSession_eq_some hT hF hlo hhi hk)⟩

/-! ### The first checks -/

section
variable {C C' : Bytes} {cfg : ConfigRegs} {p : Params} {dec : Decoder} {n : Nat} {c c' : Coded} {e : Session}

theorem feedCoded_nofec (hm : modeFec cfg.mode = false) : feedCoded C cfg p dec n = Feed.drop .dropNofec 0 dec n := by
  simp [feedCoded, hm]

theorem feedCoded_short (hm : modeFec cfg.mode = true) (hc : codedFields cfg C = none) :
    feedCoded C cfg p dec n = Feed.drop .dropShort 0 dec n := by
  simp [feedCoded, hm, hc]

theorem feedCoded_badparam (hm : modeFec cfg.mode = true) (hc : codedFields cfg C = some c) (hd : c.id ∉ dec.decoded)
    (he : sessionFor p dec c = none) : feedCoded C cfg p dec n = Feed.drop .dropBadparam c.id dec n := by
  simp [feedCoded, hm, hc, hd, he]

/-- R71: a packet that passes every check is accepted. -/
theorem feedCoded_accept (hm : modeFec cfg.mode = true) (hc : codedFields cfg C = some c) (hd : c.id ∉ dec.decoded)
    (he : sessionFor p dec c = some e) (hesi : c.esi.toNat < p.esiLimit) (hlen : c.sym.length = e.T) :
    feedCoded C cfg p dec n = acceptSymbol p c e dec n := by
  rw [feedCoded_session hm hc hd he, if_neg (Nat.not_le.2 hesi), if_neg (not_not_intro hlen)]

/-- R72: DEC_FEED reads a remainder through its fields alone. -/
theorem feedCoded_of_fields (h : codedFields cfg C' = codedFields cfg C) :
    feedCoded C' cfg p dec n = feedCoded C cfg p dec n := by
  unfold feedCoded
  rw [h]

/-- R74, R77: beyond choosing the session, F and T of a packet are not read. -/
theorem feedCoded_congr (hc : codedFields cfg C = some c) (hc' : codedFields cfg C' = some c') (hid : c'.id = c.id)
    (hesi : c'.esi = c.esi) (hsym : c'.sym = c.sym) (he : sessionFor p dec c' = sessionFor p dec c) :
    feedCoded C' cfg p dec n = feedCoded C cfg p dec n := by
  have haccept (e : Session) : acceptSymbol p c' e dec n = acceptSymbol p c e dec n := by
    simp only [acceptSymbol, hid, hesi, hsym]
  simp only [feedCoded, hc, hc', hid, hesi, hsym, he, haccept]

/-! ### An accepted symbol -/

/-- R78, R79: a repeated ESI, or a session short of K symbols: the session is put back and the window swept. -/
theorem acceptSymbol_early
    (h : (storeGet c.esi e.syms).isSome = true ∨ (e.feed c.esi c.sym).syms.length < e.K) :
    acceptSymbol p c e dec n = ⟨.needMore, c.id, [],
      sweep c.id { dec with sess := storePut c.id (e.feed c.esi c.sym) dec.sess }, n⟩ := by
  obtain ⟨-, -, hK⟩ := sessionFeed_params e c.esi c.sym
  refine if_neg ?_
  rintro ⟨hnone, hlen⟩
  rcases h with h | h
  · rw [Option.isNone_iff_eq_none] at hnone
    simp [hnone] at h
  · omega

theorem sessionFeed_repeated (h : (storeGet c.esi e.syms).isSome = true) : e.feed c.esi c.sym = e := by
  rw [sessionFeed_eq, if_pos h]

theorem sessionFeed_new (h : storeGet c.esi e.syms = none) :
    e.feed c.esi c.sym = { e with syms := storePut c.esi c.sym e.syms } := by
  rw [sessionFeed_eq, h]
  rfl

/-- R80, R81: the code answers a payload. -/
theorem acceptSymbol_decoded {B : Bytes} (hnew : storeGet c.esi e.syms = none)
    (hK : e.K ≤ (storePut c.esi c.sym e.syms).length)
    (hB : codeDecode p n e.F e.T e.K (storePut c.esi c.sym e.syms) = some B) :
    acceptSymbol p c e dec n = ⟨if (parseDir B).isSome then .decoded else .decodedBaddir, c.id, (parseDir B).getD [],
      ⟨dec.sess.filter (fun q => decide (q.1 ≠ c.id) && inWindow q.1 c.id),
        (idSetInsert c.id dec.decoded).filter (fun x => inWindow x c.id)⟩, n + 1⟩ := by
  have hsess (v : Session) := storeKeep_erase_put (fun x => inWindow x c.id) c.id v dec.sess
  simp only [acceptSymbol, sessionFeed_new hnew]
  rw [if_pos ⟨by simp [hnew], hK⟩, hB]
  cases hdir : parseDir B <;> simp [finalize, hdir, sweep, hsess, idSetKeep]

/-- R79: the code answers nothing. -/
theorem acceptSymbol_undecoded (hnew : storeGet c.esi e.syms = none)
    (hK : e.K ≤ (storePut c.esi c.sym e.syms).length)
    (hB : codeDecode p n e.F e.T e.K (storePut c.esi c.sym e.syms) = none) :
    acceptSymbol p c e dec n = ⟨.needMore, c.id, [],
      sweep c.id { dec with sess := storePut c.id { e with syms := storePut c.esi c.sym e.syms } dec.sess },
      n + 1⟩ := by
  simp only [acceptSymbol, sessionFeed_new hnew]
  rw [if_pos ⟨by simp [hnew], hK⟩, hB]

end

/-! ### The command -/

/-- R71: a DEC_FEED whose packet passes every check. -/
theorem exec_decFeed_accept {s : State} {C : Bytes} {c : Coded} {e : Session} {f : Feed} (hs : s.configured = true)
    (hm : modeFec s.cfg.mode = true) (hc : codedFields s.cfg C = some c) (hd : c.id ∉ s.dec.decoded)
    (he : sessionFor s.params s.dec c = some e) (hesi : c.esi.toNat < s.params.esiLimit) (hlen : c.sym.length = e.T)
    (hf : acceptSymbol s.params c e s.dec s.draws = f) :
    exec (.decFeed C) s = .next ((s.withDec f.dec f.draws).finish f.status f.aux f.items) := by
  rw [exec_decFeed hs, decFeedState, feedCoded_accept hm hc hd he hesi hlen, hf]

theorem exec_decFeed_congr {s : State} {C C' : Bytes}
    (h : feedCoded C s.cfg s.params s.dec s.draws = feedCoded C' s.cfg s.params s.dec s.draws) :
    exec (.decFeed C) s = exec (.decFeed C') s := by
  have hstate : decFeedState C s = decFeedState C' s := by rw [decFeedState, decFeedState, h]
  exact congrArg s.ifConfigured hstate

/-- Settles O43: the first, second and fourth check of `feedCoded`. -/
theorem feedDropsInOrder : Obligations.FeedDropsInOrder := by
  intro C s hs
  refine ⟨fun hm => exec_decFeed_drop hs (feedCoded_nofec hm),
    fun hm hc => exec_decFeed_drop hs (feedCoded_short hm hc), fun c hm hc hd hg hbad => ?_⟩
  have hnone : sessionFor s.params s.dec c = none := by
    rw [sessionFor_new hg, newSession_eq_none_iff]
    exact hbad
  exact exec_decFeed_drop hs (feedCoded_badparam hm hc hd hnone)

/-- Settles O48: both hypotheses are those of `acceptSymbol_early`. -/
theorem feedNeedsMore : Obligations.FeedNeedsMore := by
  intro C s c e e' hs hm hc hd he hesi hlen h
  have hfeed : e.feed c.esi c.sym = e' ∧
      ((storeGet c.esi e.syms).isSome = true ∨ (e.feed c.esi c.sym).syms.length < e.K) := by
    rcases h with ⟨hsome, rfl⟩ | ⟨hnew, rfl, hshort⟩
    · exact ⟨sessionFeed_repeated hsome, .inl hsome⟩
    · exact ⟨sessionFeed_new hnew, .inr (by rwa [sessionFeed_new hnew])⟩
  obtain ⟨rfl, hearly⟩ := hfeed
  exact exec_decFeed_accept hs hm hc hd he hesi hlen (acceptSymbol_early hearly)

/-- Settles O49: by what the one decode call answers. -/
theorem feedDecodes : Obligations.FeedDecodes := by
  intro C s c e e' hs hm hc hd he hesi hlen hnew he' hK
  subst he'
  cases hB : codeDecode s.params s.draws e.F e.T e.K (storePut c.esi c.sym e.syms) with
  | some B => exact exec_decFeed_accept hs hm hc hd he hesi hlen (acceptSymbol_decoded hnew hK hB)
  | none => exact exec_decFeed_accept hs hm hc hd he hesi hlen (acceptSymbol_undecoded hnew hK hB)

/-- Settles O50: the two packets share identifier, ESI and symbol, and the live session is theirs whatever F and T
are. -/
theorem liveSessionIgnoresHeader : Obligations.LiveSessionIgnoresHeader := by
  intro h h' tail id e s hh hh' htail hd hid he
  have hhead : tail.getD 0 0 = id := by
    rw [List.getD_eq_getElem?_getD, ← List.head?_eq_getElem?, hid, Option.getD_some]
  have hfields := codedFields_tail hd hh htail
  have hfields' := codedFields_tail hd hh' htail
  rw [hhead] at hfields hfields'
  exact exec_decFeed_congr
    (feedCoded_congr hfields' hfields rfl rfl rfl ((sessionFor_live he).trans (sessionFor_live he).symm))

/-- R46, R55: of the 12 header bytes only the five of F and the two of T are read. -/
theorem codedFields_header {cfg : ConfigRegs} {F5 T2 tail : Bytes} (hd : modeDynamic cfg.mode = true)
    (hF : F5.length = 5) (hT : T2.length = 2) (res Z N1 N2 Al : Byte) :
    codedFields cfg (F5 ++ [res] ++ T2 ++ [Z, N1, N2, Al] ++ tail) =
      if tail.length < 4 then none
      else some ⟨unbe F5, unbe T2, tail.getD 0 0, BitVec.ofNat 24 (unbe (slice tail 1 4)), tail.drop 4⟩ := by
  have hlen : (F5 ++ [res] ++ T2 ++ [Z, N1, N2, Al]).length = 12 := by simp [hF, hT]
  split
  · next htail =>
    rw [codedFields_none_iff, hd, List.length_append, hlen, if_pos rfl]
    omega
  · next htail =>
    have h1 : slice (F5 ++ [res] ++ T2 ++ [Z, N1, N2, Al]) 0 5 = F5 := by
      rw [List.append_assoc, List.append_assoc, slice_append_left _ _ _ _ hF.ge, slice_self _ _ hF]
    have h2 : slice (F5 ++ [res] ++ T2 ++ [Z, N1, N2, Al]) 6 8 = T2 := by
      rw [List.append_assoc, slice_append_right _ _ _ _ (by simp [hF]), List.take_left' hT]
    rw [codedFields_tail hd hlen (Nat.le_of_not_gt htail), h1, h2]

/-- Settles O51: `codedFields_header` does not mention the ignored bytes. -/
theorem ignoredHeaderBytes : Obligations.IgnoredHeaderBytes := by
  intro F5 T2 tail res res' Z Z' N1 N1' N2 N2' Al Al' s hF hT hd
  refine exec_decFeed_congr (feedCoded_of_fields ?_)
  rw [codedFields_header hd hF hT, codedFields_header hd hF hT]

/-- Settles O52: a packet that is not dropped is accepted for that session, and `acceptSymbol_early` makes no call. -/
theorem neverDecodesEarly : Obligations.NeverDecodesEarly := by
  intro C s t r c e hs hc he hearly hexec hr
  cases hexec.symm.trans (exec_decFeed hs C)
  cases hr
  change (feedCoded C s.cfg s.params s.dec s.draws).status ≠ .decoded ∧
    (feedCoded C s.cfg s.params s.dec s.draws).status ≠ .decodedBaddir
  rcases feedCoded_cases C s.cfg s.params s.dec s.draws with
    ⟨st, aux, hst, h⟩ | ⟨-, c', e', hc', -, he', -, -, h⟩ <;> rw [h]
  · constructor <;> (rintro rfl; simp at hst)
  · cases hc.symm.trans hc'
    cases he.symm.trans he'
    have hshort : (storeGet c.esi e.syms).isSome = true ∨ (e.feed c.esi c.sym).syms.length < e.K := by
      cases hg : storeGet c.esi e.syms with
      | some b => exact .inl rfl
      | none =>
        rw [sessionFeed_new hg, storePut_length_of_none hg]
        exact .inr (hearly.resolve_right (by simp [hg]))
    rw [acceptSymbol_early hshort]
    simp

/-! ### The cache after an accepted feed -/

/-- Settles O58: a feed that is not dropped is accepted, and `acceptSymbol_dec` says what it leaves. -/
theorem acceptedFeedSweeps : Obligations.AcceptedFeedSweeps := by
  intro C s t r hs hexec hr hdrop
  cases hexec.symm.trans (exec_decFeed hs C)
  cases hr
  rcases feedCoded_cases C s.cfg s.params s.dec s.draws with ⟨st, aux, hst, h⟩ | ⟨-, c, e, -, -, -, -, -, h⟩
  · have hnot : st.isDrop = false := by rwa [h] at hdrop
    simp only [List.mem_cons, List.not_mem_nil, or_false] at hst
    rcases hst with rfl | rfl | rfl | rfl | rfl | rfl <;> cases hnot
  · obtain ⟨hwin, hsess, hdecoded, hown, haux⟩ := acceptSymbol_dec s.params c e s.dec s.draws
    simp only [decFeedState, h, finish_dec, withDec_dec, haux]
    exact ⟨hwin, hsess, hdecoded, hown⟩

/-- Settles O59: seen from `x + j`, the identifier `x` lies `256 - j` steps forward. -/
theorem evictionTiming : Obligations.EvictionTiming := by
  intro C s t r x j hs h1 h255 hexec hr hdrop haux
  obtain ⟨-, hsess, hdecoded, -⟩ := acceptedFeedSweeps C s t r hs hexec hr hdrop
  have hfwd : fwd x r.aux = 256 - j := haux ▸ fwd_add x j h1 h255
  have hne : x ≠ r.aux := by
    intro h
    rw [← h, fwd_self] at hfwd
    omega
  have hwin := inWindow_iff x r.aux
  rw [hsess x hne, hdecoded x hne]
  refine ⟨fun hj => ?_, fun hlo hhi => ?_⟩
  · have hin : inWindow x r.aux = true := hwin.2 (by omega)
    simp [hin]
  · have hout : inWindow x r.aux = false := by
      rw [← Bool.not_eq_true, hwin]
      omega
    simp [hout]

end Sys2Proof.Laws
end

section
/-! SUPPORT. The block payload directory, written and parsed back (R48, R63, R81). -/

namespace Sys2Proof.Laws

open Sys2Proof.Machine

/-- R48: the buffer after some datagrams, from the empty one. -/
theorem buffered_eq (id : BlockId) (ds : List Bytes) : ds.foldl Encoder.append ⟨id, [], []⟩ =
    ⟨id, ds.flatten, (endOffsets 0 ds).map (BitVec.ofNat 16)⟩ := by
  simp [foldl_append_eq]

/-- R63: the directory of offsets that fit 16 bits. -/
theorem makeDir_map {os : List Nat} (h : ∀ o ∈ os, o < 2 ^ 16) :
    makeDir (os.map (BitVec.ofNat 16)) = os.flatMap (be 2) ++ [BitVec.ofNat 8 os.length] := by
  have hoffs : (os.map (BitVec.ofNat 16)).flatMap (fun o => be 2 o.toNat) = os.flatMap (be 2) := by
    rw [List.flatMap_map]
    refine List.flatMap_congr fun o ho => ?_
    rw [BitVec.toNat_ofNat, Nat.mod_eq_of_lt (h o ho)]
  rw [makeDir, hoffs, be_one, List.length_map]

/-- R48, R81: the directory of buffered datagrams parses back to them, whatever stands before it. -/
theorem parseDir_buffered {ds : List Bytes} (pad : Bytes) (hn : ds.length ≤ 255) (hlen : ds.flatten.length ≤ 65535) :
    parseDir (ds.flatten ++ pad ++ makeDir ((endOffsets 0 ds).map (BitVec.ofNat 16))) = some ds := by
  have hoffs : ∀ o ∈ endOffsets 0 ds, o < 2 ^ 16 := fun o ho => by
    have := endOffsets_le 0 ds o ho
    omega
  have hcount : (endOffsets 0 ds).length = (BitVec.ofNat 8 (endOffsets 0 ds).length).toNat := by
    rw [BitVec.toNat_ofNat, endOffsets_length, Nat.mod_eq_of_lt (by omega)]
  rw [makeDir_map hoffs, ← List.append_assoc, parseDir_eq _ _ _ hcount hoffs]
  exact cutWindows_endOffsets ds [] pad

/-- Settles O55: the buffer holds the concatenation and its end offsets, and `parseDir_buffered` reads them back. -/
theorem directoryRoundTrip : Obligations.DirectoryRoundTrip := by
  intro ds pad id hn hlen
  simp only [buffered_eq]
  exact ⟨trivial, parseDir_buffered pad hn hlen⟩

theorem parseDir_short {B : Bytes} {last : Byte} (h : B.length < 2 * last.toNat) : parseDir (B ++ [last]) = none := by
  have hlast : (B ++ [last]).getD ((B ++ [last]).length - 1) 0 = last := by simp
  simp only [parseDir, hlast]
  rw [if_neg (by simp), if_pos (by simp; omega)]

/-- Settles O56: on a whole directory `parseDir` is `cutWindows`, of which the two lemmas say when it answers and
what. -/
theorem directoryParserChecks : Obligations.DirectoryParserChecks := by
  refine ⟨rfl, fun B last h => parseDir_short h, fun D os last hn hoffs => ?_⟩
  rw [parseDir_eq D os last hn hoffs]
  refine ⟨?_, fun out hout => ?_⟩
  · rw [cutWindows_ne_none_iff]
    simp
  · obtain ⟨hlen, -, -, hflat⟩ := cutWindows_out D D.length os 0 out (Nat.zero_le _) hout
    exact ⟨hlen, by simpa [slice] using hflat⟩

end Sys2Proof.Laws
end

section
/-! SUPPORT. The link, end to end (R69, R83): what a packet of a built block says to a receiver, what the receiver holds
after some of them, and what the one that completes the block delivers. -/

namespace Sys2Proof.Laws

open Sys2Proof.Machine Sys2Proof.Safety

/-! ### The symbols received so far -/

/-- R26, R78: the symbols at some identifiers, stored one after another (`symbolMap_concat`). -/
def symbolMap (sym : Nat → Bytes) (es : List Nat) : Store 24 Bytes :=
  es.foldl (fun M e => storePut (BitVec.ofNat 24 e) (sym e) M) []

theorem symbolMap_concat (sym : Nat → Bytes) (es : List Nat) (e : Nat) :
    symbolMap sym (es ++ [e]) = storePut (BitVec.ofNat 24 e) (sym e) (symbolMap sym es) := by
  simp [symbolMap, List.foldl_append]

theorem toNat_ofNat_esi {e : Nat} (h : e < 2 ^ 24) : (BitVec.ofNat 24 e).toNat = e := by
  rw [BitVec.toNat_ofNat, Nat.mod_eq_of_lt h]

theorem storeWf_symbolMap (sym : Nat → Bytes) (es : List Nat) : storeWf (symbolMap sym es) := by
  induction es using List.reverseRecOn with
  | nil => exact List.Pairwise.nil
  | append_singleton es e ih => rw [symbolMap_concat]; exact storeWf_put ih

theorem mem_symbolMap {sym : Nat → Bytes} {es : List Nat} (h : ∀ e ∈ es, e < 2 ^ 24) {q : Esi × Bytes}
    (hq : q ∈ symbolMap sym es) : q.1.toNat ∈ es ∧ q.2 = sym q.1.toNat := by
  induction es using List.reverseRecOn with
  | nil => cases hq
  | append_singleton es e ih =>
    rw [symbolMap_concat] at hq
    rcases mem_storePut hq with rfl | hq
    · simp [toNat_ofNat_esi (h e (by simp))]
    · obtain ⟨hmem, hsym⟩ := ih (fun e he => h e (List.mem_append_left _ he)) hq
      exact ⟨List.mem_append_left _ hmem, hsym⟩

theorem storeGet_symbolMap_new {sym : Nat → Bytes} {es : List Nat} {e : Nat} (h : ∀ x ∈ es, x < 2 ^ 24)
    (he : e < 2 ^ 24) (hnew : e ∉ es) : storeGet (BitVec.ofNat 24 e) (symbolMap sym es) = none := by
  rw [storeGet_eq_none_iff]
  intro hkey
  obtain ⟨q, hq, hqe⟩ := List.mem_map.1 hkey
  have hmem := (mem_symbolMap h hq).1
  rw [hqe, toNat_ofNat_esi he] at hmem
  exact hnew hmem

theorem length_symbolMap {sym : Nat → Bytes} {es : List Nat} (h : ∀ e ∈ es, e < 2 ^ 24) (hnd : es.Nodup) :
    (symbolMap sym es).length = es.length := by
  induction es using List.reverseRecOn with
  | nil => rfl
  | append_singleton es e ih =>
    obtain ⟨hes, -, hdisj⟩ := List.nodup_append.1 hnd
    have hlt : ∀ x ∈ es, x < 2 ^ 24 := fun x hx => h x (List.mem_append_left _ hx)
    have hnew : e ∉ es := fun hmem => hdisj e hmem e (by simp) rfl
    rw [symbolMap_concat, storePut_length_of_none (storeGet_symbolMap_new hlt (h e (by simp)) hnew), ih hlt hes,
      List.length_append, List.length_singleton]

/-- The symbol is new to the session, and the session with it holds one symbol more. -/
theorem symbolMap_next {p : Params} (hp : p.wf) {got : List Nat} {e : Nat} (hnd : (got ++ [e]).Nodup)
    (hlt : ∀ x ∈ got ++ [e], x < p.esiLimit) (sym : Nat → Bytes) :
    storeGet (BitVec.ofNat 24 e) (symbolMap sym got) = none ∧
      (storePut (BitVec.ofNat 24 e) (sym e) (symbolMap sym got)).length = got.length + 1 := by
  have hlt24 : ∀ x ∈ got ++ [e], x < 2 ^ 24 := fun x hx => lt_of_lt_of_le (hlt x hx) hp
  obtain ⟨-, -, hdisj⟩ := List.nodup_append.1 hnd
  refine ⟨storeGet_symbolMap_new (fun x hx => hlt24 x (List.mem_append_left _ hx)) (hlt24 e (by simp))
    fun hmem => hdisj e hmem e (by simp) rfl, ?_⟩
  rw [← symbolMap_concat, length_symbolMap hlt24 hnd, List.length_append, List.length_singleton]

theorem mem_keys_symbolMap {sym : Nat → Bytes} {es : List Nat} {e : Nat} (h : ∀ x ∈ es, x < 2 ^ 24) (he : e ∈ es) :
    e ∈ (symbolMap sym es).map (fun q => q.1.toNat) := by
  have hkey : BitVec.ofNat 24 e ∈ storeKeys (symbolMap sym es) := by
    clear h
    induction es using List.reverseRecOn with
    | nil => cases he
    | append_singleton es x ih =>
      rw [symbolMap_concat, mem_storeKeys_put]
      rcases List.mem_append.1 he with he | he
      · exact .inr (ih he)
      · exact .inl (by rw [List.mem_singleton.1 he])
  obtain ⟨q, hq, hqe⟩ := List.mem_map.1 hkey
  exact List.mem_map.2 ⟨q, hq, by rw [hqe, toNat_ofNat_esi (h e he)]⟩

/-! ### A block on the link -/

/-- R64, R65: a block that an encoder has built: its identifier, its payload, its symbol size and the number of its
source symbols. -/
structure Block where
  id : BlockId
  payload : Bytes
  T : Nat
  k : Nat

/-- R70: symbol `e` of a block. -/
def Block.sym (p : Params) (b : Block) (e : Nat) : Bytes :=
  codeSym p (paddedPayload b.payload b.T b.k) b.T b.k e

/-- R72: what the coded packet of symbol `e` says. -/
def Block.coded (p : Params) (b : Block) (e : Nat) : Coded :=
  ⟨b.payload.length, b.T, b.id, BitVec.ofNat 24 e, b.sym p e⟩

/-- R26: the session of a block after the symbols `es`. -/
def Block.session (p : Params) (b : Block) (es : List Nat) : Session :=
  ⟨b.payload.length, b.T, b.k, symbolMap (b.sym p) es⟩

/-- R10, R70: a block whose symbols the code takes. -/
def Block.Codable (p : Params) (b : Block) : Prop :=
  p.inRange b.T b.k ∧ (b.k - 1) * b.T < b.payload.length ∧ b.payload.length ≤ b.k * b.T

theorem paddedPayload_length {B : Bytes} {T k : Nat} (h : B.length ≤ k * T) : (paddedPayload B T k).length = k * T := by
  simp only [paddedPayload, List.length_append, zeros_length]
  omega

theorem paddedPayload_take (B : Bytes) (T k : Nat) : (paddedPayload B T k).take B.length = B :=
  List.take_left

section
variable {p : Params} {b : Block} {es : List Nat}

theorem Block.k_pos (hb : b.Codable p) : 1 ≤ b.k := by
  obtain ⟨⟨-, -, hk, -⟩, -, -⟩ := hb
  exact hk

theorem Block.sym_length (hb : b.Codable p) {e : Nat} (he : e < p.esiLimit) : (b.sym p e).length = b.T := by
  obtain ⟨hrange, -, hlen⟩ := hb
  exact codeSym_length hrange (paddedPayload_length hlen) he

/-- R74: the candidate session of a block is its session without symbols. -/
theorem Block.newSession_eq (hb : b.Codable p) : newSession p b.payload.length b.T = some (b.session p []) := by
  obtain ⟨⟨hT, -, -, hk⟩, hlo, hhi⟩ := hb
  exact newSession_eq_some hT (by omega) hlo hhi hk

/-- R70 law 2, R83: `k` distinct symbols decode to the payload, where law 2 can be met on the first `m` symbols and
these are among them, or they are the source symbols. -/
theorem Block.codeDecode_symbols (hb : b.Codable p) (hp : p.wf) {m : Nat} (hm : m ≤ p.esiLimit) (hnd : es.Nodup)
    (hlen : es.length = b.k) (hes : ∀ e ∈ es, e < m) (hlaw : LawTwoPossible b.T b.k m ∨ ∀ e ∈ es, e < b.k) (n : Nat) :
    codeDecode p n b.payload.length b.T b.k (symbolMap (b.sym p) es) = some b.payload := by
  obtain ⟨hrange, hlo, hhi⟩ := hb
  have hlt : ∀ e ∈ es, e < 2 ^ 24 := fun e he => lt_of_lt_of_le (hes e he) (hm.trans hp)
  have hall : (∀ e ∈ es, e < b.k) → ∀ e < b.k, e ∈ es := by
    intro hsrc e he
    have hsub : es.toFinset ⊆ Finset.range b.k := fun x hx => Finset.mem_range.2 (hsrc x (List.mem_toFinset.1 hx))
    have hcard : (Finset.range b.k).card ≤ es.toFinset.card := by
      rw [Finset.card_range, List.toFinset_card_of_nodup hnd, hlen]
    rw [← List.mem_toFinset, Finset.eq_of_subset_of_card_le hsub hcard]
    exact Finset.mem_range.2 he
  have hdecode := codeDecode_genuine (n := n) hrange hlo hhi (paddedPayload_length hhi)
    (storeWf_symbolMap (b.sym p) es) (by rw [length_symbolMap hlt hnd, hlen]) hm
    (fun q hq => hes _ (mem_symbolMap hlt hq).1) (fun q hq => (mem_symbolMap hlt hq).2)
    (hlaw.imp_right fun hsrc => sourcesPresent_of_mem (storeWf_symbolMap _ _)
      fun e he => mem_keys_symbolMap hlt (hall hsrc e he))
  rwa [paddedPayload_take] at hdecode

end

/-! ### What a built block's packets say -/

/-- R65: BuildBlock builds within the code's limits, and its packets are its symbols' in the order of their ESIs. -/
theorem buildBlock_eq_built {cfg : ConfigRegs} {p : Params} {enc enc' : Encoder} {packets : List Bytes}
    (hcfg : ConfigOk p cfg) (hf : modeFec cfg.mode = true) (h : buildBlock cfg p enc = ⟨.built, packets, enc'⟩) :
    ∃ b : Block, b.id = enc.id ∧ blockPayload cfg enc = some b.payload ∧ b.T = cfg.symT.toNat ∧ b.Codable p ∧
      b.k + cfg.repairCount.toNat ≤ p.esiLimit ∧ packets = (List.range (b.k + cfg.repairCount.toNat)).map
        fun e => codedPacket cfg b.payload.length b.id e (b.sym p e) := by
  have hT := symT_pos hcfg hf
  have hT' := cfg.symT.isLt
  unfold buildBlock at h
  split at h
  · cases h
  · split at h
    · cases h
    · next B hB =>
      dsimp only at h
      split at h
      · cases h
      · next hlim =>
        cases h
        obtain ⟨hk, hesi⟩ := not_or.1 hlim
        have hF := blockPayload_pos hB
        refine ⟨⟨enc.id, B, cfg.symT.toNat, ceilDiv B.length cfg.symT.toNat⟩, rfl, hB, rfl, ⟨⟨hT, Nat.le_of_lt_succ hT',
          ceilDiv_pos hF hT, Nat.not_lt.1 hk⟩, pred_ceilDiv_mul_lt hF hT, le_ceilDiv_mul hT⟩, by simpa using hesi, ?_⟩
        rw [blockPackets_eq]
        refine List.map_congr_left fun e _ => ?_
        split
        · next he => rw [Block.sym, codeSym_source he]; rfl
        · rfl

/-- Receiver and encoder agree on what the packets leave unsaid: MAGIC, MODE and, in Static mode, the block's
constants. -/
def SameLink (rcfg cfg : ConfigRegs) : Prop :=
  rcfg.magic = cfg.magic ∧ rcfg.mode = cfg.mode ∧ (modeDynamic cfg.mode = false →
    rcfg.staticBlockSize = cfg.staticBlockSize ∧ rcfg.staticPacketSize = cfg.staticPacketSize)

/-- A packet passes a receiver's header check and its fields are those of `c`. -/
def Carries (rcfg : ConfigRegs) (packet : Bytes) (c : Coded) : Prop :=
  ∃ rem, parseWire rcfg.magic packet = .ok (true, rem) ∧ codedFields rcfg rem = some c

theorem hdrFec_eq {p : Params} {cfg : ConfigRegs} (h : ConfigOk p cfg) : cfg.hdrFec = wireHeader cfg.magic true := by
  obtain ⟨-, -, hhdr, -⟩ := h
  exact hhdr

/-- R45 to R47, R72: a receiver on the same link reads from a coded packet what the encoder wrote. -/
theorem codedPacket_carries {rcfg cfg : ConfigRegs} {p : Params} {enc : Encoder} {B : Bytes} (hcfg : ConfigOk p cfg)
    (hf : modeFec cfg.mode = true) (hlink : SameLink rcfg cfg) (hB : blockPayload cfg enc = some B)
    (hF : B.length < 2 ^ 40) (id : BlockId) {e : Nat} (he : e < 2 ^ 24) (sym : Bytes) :
    Carries rcfg (codedPacket cfg B.length id e sym) ⟨B.length, cfg.symT.toNat, id, BitVec.ofNat 24 e, sym⟩ := by
  obtain ⟨hmagic, hmode, hstatic⟩ := hlink
  have hhdr := hdrFec_eq hcfg
  cases hd : modeDynamic cfg.mode with
  | true =>
    refine ⟨be 5 B.length ++ [0x00] ++ be 2 cfg.symT.toNat ++ [0x01, 0x00, 0x01, 0x01] ++ [id] ++ be 3 e ++ sym, ?_, ?_⟩
    · rw [codedPacket_dynamic hd, hhdr, hmagic, ← parseWire_wireHeader cfg.magic]
      simp only [List.append_assoc]
    · exact codedFields_dyn (hmode ▸ hd) _ _ _ _ _ _ _ _ _ _ hF cfg.symT.isLt he
  | false =>
    obtain ⟨hsblk, hspkt⟩ := hstatic hd
    obtain ⟨-, -, -, hsymT⟩ := static_pos hcfg hf hd
    obtain ⟨-, -, hlen⟩ := blockPayload_cases hB
    refine ⟨[id] ++ be 3 e ++ sym, ?_, ?_⟩
    · rw [codedPacket_static hd, hhdr, hmagic, ← parseWire_wireHeader cfg.magic]
      simp only [List.append_assoc]
    · rw [codedFields_static (hmode ▸ hd) e id sym he, hsblk, hspkt, hlen hd, hsymT]

/-! ### The receiver -/

/-- The receiver holds the symbols `got` of a block and has not decoded it; with none, it may hold no session at all. -/
def Receiving (p : Params) (rcfg : ConfigRegs) (b : Block) (got : List Nat) (u : State) : Prop :=
  u.configured = true ∧ u.cfg = rcfg ∧ u.params = p ∧ b.id ∉ u.dec.decoded ∧
  (storeGet b.id u.dec.sess = some (b.session p got) ∨ got = [] ∧ storeGet b.id u.dec.sess = none)

section
variable {p : Params} {rcfg : ConfigRegs} {b : Block} {got : List Nat} {u : State} {packet : Bytes} {e : Nat}

theorem Receiving.sessionFor_eq (hu : Receiving p rcfg b got u) (hb : b.Codable p) :
    sessionFor u.params u.dec (b.coded p e) = some (b.session p got) := by
  obtain ⟨-, -, rfl, -, hlive | ⟨rfl, hnone⟩⟩ := hu
  · exact sessionFor_live hlive
  · exact (sessionFor_new hnone).trans (Block.newSession_eq hb)

/-- R60, R77: RX_PACKET of a packet of the block is an accepted symbol. -/
theorem Receiving.exec_rxPacket {f : Feed} (hu : Receiving p rcfg b got u) (hb : b.Codable p) (hp : p.wf)
    (hf : modeFec rcfg.mode = true) (hpkt : Carries rcfg packet (b.coded p e)) (he : e < p.esiLimit)
    (hacc : acceptSymbol p (b.coded p e) (b.session p got) u.dec u.draws = f) :
    exec (.rxPacket packet) u = .next ((u.withDec f.dec f.draws).finish f.status f.aux f.items) := by
  have hsess := hu.sessionFor_eq hb (e := e)
  obtain ⟨hc, rfl, rfl, hd, -⟩ := hu
  obtain ⟨rem, hwire, hfields⟩ := hpkt
  have hesi : (b.coded u.params e).esi.toNat < u.params.esiLimit := by
    rwa [Block.coded, toNat_ofNat_esi (lt_of_lt_of_le he hp)]
  rw [exec_rxPacket_fec hc hwire hf]
  exact exec_decFeed_accept hc hf hfields hd hsess hesi (Block.sym_length hb he) hacc

variable (hu : Receiving p rcfg b got u) (hb : b.Codable p) (hp : p.wf) (hf : modeFec rcfg.mode = true)
  (hpkt : Carries rcfg packet (b.coded p e)) (hnd : (got ++ [e]).Nodup) (hlt : ∀ x ∈ got ++ [e], x < p.esiLimit)
include hu hb hp hf hpkt hnd hlt

/-- R78, R79: a further symbol that leaves the block short of `k`. -/
theorem Receiving.rxPacket_early (hshort : got.length + 1 < b.k) :
    ∃ t, exec (.rxPacket packet) u = .next t ∧ Receiving p rcfg b (got ++ [e]) t ∧ t.port = u.port ∧
      t.response = some ⟨.needMore, b.id, []⟩ := by
  obtain ⟨hnew, hlen⟩ := symbolMap_next hp hnd hlt (b.sym p)
  have hfeed : (b.session p got).feed (b.coded p e).esi (b.coded p e).sym = b.session p (got ++ [e]) := by
    rw [sessionFeed_new hnew, Block.session, Block.session, symbolMap_concat]
    rfl
  have hearly : ((b.session p got).feed (b.coded p e).esi (b.coded p e).sym).syms.length < (b.session p got).K := by
    rw [hfeed, Block.session, symbolMap_concat, hlen]
    exact hshort
  refine ⟨_, hu.exec_rxPacket hb hp hf hpkt (hlt e (by simp)) (acceptSymbol_early (.inr hearly)), ?_, rfl, rfl⟩
  obtain ⟨hc, hcfg, hparams, hd, -⟩ := hu
  refine ⟨hc, hcfg, hparams, fun h => hd (mem_idSetKeep.1 h).1, .inl ?_⟩
  have hget := storeGet_keep (fun x => inWindow x b.id) b.id (storePut b.id (b.session p (got ++ [e])) u.dec.sess)
  rw [inWindow_self, if_pos rfl, storeGet_put_self] at hget
  rw [hfeed]
  exact hget

/-- R79 to R82: the symbol that completes the block. -/
theorem Receiving.rxPacket_last {ds : List Bytes} (hlast : got.length + 1 = b.k)
    (hdecode : codeDecode p u.draws b.payload.length b.T b.k (symbolMap (b.sym p) (got ++ [e])) = some b.payload)
    (hdir : parseDir b.payload = some ds) :
    ∃ t, exec (.rxPacket packet) u = .next t ∧ t.response = some ⟨.decoded, b.id, ds⟩ ∧ b.id ∈ t.dec.decoded ∧
      storeGet b.id t.dec.sess = none := by
  obtain ⟨hnew, hlen⟩ := symbolMap_next hp hnd hlt (b.sym p)
  rw [symbolMap_concat] at hdecode
  have hacc := acceptSymbol_decoded (dec := u.dec) (c := b.coded p e) (e := b.session p got) hnew
    (hlast.symm.trans hlen.symm).le hdecode
  rw [hdir] at hacc
  refine ⟨_, hu.exec_rxPacket hb hp hf hpkt (hlt e (by simp)) hacc, rfl, ?_, ?_⟩
  · exact List.mem_filter.2 ⟨mem_idSetInsert.2 (.inl rfl), inWindow_self _⟩
  · have hget := storeGet_keep (fun x => decide (x ≠ b.id) && inWindow x b.id) b.id u.dec.sess
    rw [if_neg (by simp)] at hget
    exact hget

end

/-! ### The run -/

/-- R50: the event that presents a packet to a receiver. -/
def rxEvent (packet : Bytes) : HostEvent :=
  .command (encode (.rxPacket packet))

theorem step_rxEvent {s : State} {packet : Bytes} {rest : List HostEvent} (h : s.port = rxEvent packet :: rest)
    (hlen : packet.length ≤ 65535) : step s = exec (.rxPacket packet) { s with port := rest } :=
  stepRunsDecodedCommand s _ rest _ h (decodeInvertsEncode _ (decide_eq_true hlen))

theorem Receiving.withPort {p : Params} {rcfg : ConfigRegs} {b : Block} {got : List Nat} {u : State}
    (h : Receiving p rcfg b got u) (port : List HostEvent) : Receiving p rcfg b got { u with port := port } :=
  h

section
variable {p : Params} {rcfg : ConfigRegs} {b : Block} {es : List Nat} {pkt : Nat → Bytes} {rx : State}
  (hb : b.Codable p) (hp : p.wf) (hf : modeFec rcfg.mode = true) (hnd : es.Nodup) (hlen : es.length = b.k)
  (hlt : ∀ e ∈ es, e < p.esiLimit) (hpkt : ∀ e ∈ es, Carries rcfg (pkt e) (b.coded p e))
  (hfit : ∀ e ∈ es, (pkt e).length ≤ 65535) (hrx : Receiving p rcfg b [] rx)
include hb hp hf hnd hlen hlt hpkt hfit hrx

/-- R83: before the `k`-th packet the receiver holds the symbols given so far. -/
theorem run_receive {n : Nat} (hn : n < b.k) :
    ∃ u, Sys2Proof.core.run n { rx with port := es.map fun e => rxEvent (pkt e) } = .next u ∧
      Receiving p rcfg b (es.take n) u ∧ u.port = (es.drop n).map (fun e => rxEvent (pkt e)) ∧
      (1 ≤ n → u.response = some ⟨.needMore, b.id, []⟩) := by
  induction n with
  | zero => exact ⟨_, rfl, hrx.withPort _, rfl, fun h => absurd h (by decide)⟩
  | succ n ih =>
    obtain ⟨u, hrun, hu, hport, -⟩ := ih (by omega)
    have hne : n < es.length := by omega
    have hmem : es[n] ∈ es := List.getElem_mem hne
    have htake : es.take (n + 1) = es.take n ++ [es[n]] := List.take_succ_eq_append_getElem hne
    have hsub : ∀ x ∈ es.take n ++ [es[n]], x < p.esiLimit := fun x hx =>
      hlt x (List.mem_of_mem_take (htake ▸ hx))
    rw [List.drop_eq_getElem_cons hne, List.map_cons] at hport
    have hearly : (es.take n).length + 1 < b.k := by rw [List.length_take]; omega
    obtain ⟨t, hexec, ht, htport, hresp⟩ := (hu.withPort _).rxPacket_early hb hp hf (hpkt _ hmem)
      (htake ▸ hnd.sublist (List.take_sublist _ _)) hsub hearly
    refine ⟨t, ?_, htake ▸ ht, htport, fun _ => hresp⟩
    rw [run_succ_last n _ hrun, step_rxEvent hport (hfit _ hmem), hexec]
    rfl

/-- R83: the `k`-th packet delivers the block. -/
theorem run_receive_all {ds : List Bytes}
    (hdecode : ∀ n, codeDecode p n b.payload.length b.T b.k (symbolMap (b.sym p) es) = some b.payload)
    (hdir : parseDir b.payload = some ds) :
    ∃ u, Sys2Proof.core.run b.k { rx with port := es.map fun e => rxEvent (pkt e) } = .next u ∧
      u.response = some ⟨.decoded, b.id, ds⟩ ∧ b.id ∈ u.dec.decoded ∧ storeGet b.id u.dec.sess = none := by
  obtain ⟨n, hk⟩ : ∃ n, b.k = n + 1 := Nat.exists_eq_succ_of_ne_zero (Nat.one_le_iff_ne_zero.1 (Block.k_pos hb))
  obtain ⟨u, hrun, hu, hport, -⟩ := run_receive hb hp hf hnd hlen hlt hpkt hfit hrx (n := n) (by omega)
  have hne : n < es.length := by omega
  have hmem : es[n] ∈ es := List.getElem_mem hne
  have hall : es.take n ++ [es[n]] = es := by
    rw [← List.take_succ_eq_append_getElem hne, List.take_of_length_le (by omega)]
  rw [List.drop_eq_getElem_cons hne, List.map_cons] at hport
  obtain ⟨t, hexec, ht⟩ := (hu.withPort _).rxPacket_last hb hp hf (hpkt _ hmem) (hall.symm ▸ hnd) (hall.symm ▸ hlt)
    (by rw [List.length_take]; omega) (by rw [hall]; exact hdecode _) hdir
  refine ⟨t, ?_, ht⟩
  rw [hk, run_succ_last n _ hrun, step_rxEvent hport (hfit _ hmem), hexec]
  rfl

end

/-- R48, R49: the payload of a block of buffered datagrams has a 40-bit length and their directory. -/
theorem blockPayload_buffered {cfg : ConfigRegs} {id : BlockId} {ds : List Bytes} {B : Bytes} (hn : ds.length ≤ 255)
    (hlen : ds.flatten.length ≤ 65535)
    (hB : blockPayload cfg ⟨id, ds.flatten, (endOffsets 0 ds).map (BitVec.ofNat 16)⟩ = some B) :
    B.length < 2 ^ 40 ∧ parseDir B = some ds := by
  constructor
  · have hsblk := cfg.staticBlockSize.isLt
    obtain ⟨hBlen, -⟩ := blockPayload_length hB
    simp only [List.length_map, endOffsets_length] at hBlen
    split at hBlen <;> omega
  · obtain ⟨pad, rfl, -⟩ := blockPayload_cases hB
    exact parseDir_buffered pad hn hlen

/-- Settles O60: the built block's packets carry its symbols (`codedPacket_carries`), `run_receive` follows the receiver
up to the last of them, and `run_receive_all` decodes and parses the payload. -/
theorem roundTripUnderLoss : Obligations.RoundTripUnderLoss := by
  intro p cfg id enc' rx ds packets k es hcfg hf _ hn hlen hbuilt hcount _ hc hparams hp hmagic hmode hstatic hfit
    hnone hnotdec hnd hk hes hlaw n hnk
  rw [buffered_eq] at hbuilt
  obtain ⟨b, rfl, hpayload, hT, hb, hesi, hpackets⟩ := buildBlock_eq_built hcfg hf hbuilt
  obtain ⟨hF, hdir⟩ := blockPayload_buffered hn hlen hpayload
  have hpacketsLength : packets.length = b.k + cfg.repairCount.toNat := by
    rw [hpackets, List.length_map, List.length_range]
  obtain rfl : b.k = k := by omega
  have hlt : ∀ e ∈ es, e < p.esiLimit := fun e he => by
    have := hes e he
    omega
  have hget : ∀ e ∈ es, packets.getD e [] = codedPacket cfg b.payload.length b.id e (b.sym p e) := fun e he => by
    rw [List.getD_eq_getElem packets [] (hes e he)]
    simp [hpackets]
  have hcarries : ∀ e ∈ es, Carries rx.cfg (packets.getD e []) (b.coded p e) := fun e he => by
    rw [hget e he, Block.coded, hT]
    exact codedPacket_carries hcfg hf ⟨hmagic, hmode, hstatic⟩ hpayload hF _ (lt_of_lt_of_le (hlt e he) hp) _
  have hfits : ∀ e ∈ es, (packets.getD e []).length ≤ 65535 := fun e he => by
    rw [List.getD_eq_getElem packets [] (hes e he)]
    exact hfit _ (List.getElem_mem _)
  have hfrx : modeFec rx.cfg.mode = true := hmode ▸ hf
  have hreceiving : Receiving p rx.cfg b [] rx := ⟨hc, rfl, hparams, hnotdec, .inr ⟨rfl, hnone⟩⟩
  have hdecode (d : Nat) : codeDecode p d b.payload.length b.T b.k (symbolMap (b.sym p) es) = some b.payload := by
    rcases hlaw with ⟨m, hm, hposs, hbelow⟩ | hsrc
    · exact Block.codeDecode_symbols hb hp (by omega) hnd hk hbelow (.inl (hT ▸ hposs)) d
    · exact Block.codeDecode_symbols hb hp (hpacketsLength ▸ hesi) hnd hk hes (.inr hsrc) d
  rcases Nat.lt_or_eq_of_le hnk with hlt' | rfl
  · obtain ⟨u, hrun, -, -, hresp⟩ := run_receive hb hp hfrx hnd hk hlt hcarries hfits hreceiving hlt'
    exact ⟨u, hrun, fun h1 _ => hresp h1, fun h => absurd h hlt'.ne⟩
  · obtain ⟨u, hrun, hdone⟩ := run_receive_all hb hp hfrx hnd hk hlt hcarries hfits hreceiving hdecode hdir
    exact ⟨u, hrun, fun _ h => absurd h (lt_irrefl _), fun _ => hdone⟩

end Sys2Proof.Laws
end
